-- ==== Sys2Proof/Word.lean ====
section
/-! DEFINITION. The two word types of the machine (spec/00_scope.md R7: REG_W = 8, ADDR_W = PC_W = 16, fixed). -/

namespace Sys2Proof

/-- A byte, and the width of A, X and Y: "each an 8-bit unsigned value" (R9, R21). -/
abbrev Byte := BitVec 8

/-- A 16-bit address, and the width of PC (R25, R40). -/
abbrev Addr := BitVec 16

end Sys2Proof
end

