-- ==== Sys2Proof/Config.lean ====
section
/-! DEFINITION. The configuration record of spec/00_scope.md R7, its legal values, and the model's free value.
The parameter VALUES this spec takes stand in Machine/Parameters.lean. -/

namespace Sys2Proof

/-- The closed enumeration of operand-addressing strategies (R110). -/
inductive AddressMode where
  | immediate
  | zeroPage
  | zeroPageIndexedByX
  | absolute
  | absoluteIndexedByX
  | absoluteIndexedByY
  | indirectIndexedByX
  | indirectIndexedByY
  deriving DecidableEq, Repr

/-- The operations a dispatch entry can name. Only LDA is in scope (R2, R65). -/
inductive Operation where
  | lda
  deriving DecidableEq, Repr

/-- An entry of the opcode table (R63). The third part of the spec's triple, the base cost, is
`Config.baseCost` of the mode: "this spec's base cost of an entry is BASE_COST(mode)". -/
structure DispatchEntry where
  mode      : AddressMode
  operation : Operation
  deriving DecidableEq, Repr

/-- `DISPATCH` (R63): opcode bytes with their entries; a byte not listed has no entry.
The legal form lists opcodes in strictly rising order, so a byte has at most one entry (log 12). -/
abbrev DispatchTable := List (Byte × DispatchEntry)

namespace DispatchTable

/-- `DISPATCH[op]` (R93). -/
def lookup : DispatchTable → Byte → Option DispatchEntry
  | [], _ => none
  | (k, e) :: rest, op => if op = k then some e else lookup rest op

/-- The first opcode byte bound to an entry, for encoding. -/
def opcodeOf : DispatchTable → DispatchEntry → Option Byte
  | [], _ => none
  | (k, e) :: rest, want => if want = e then some k else opcodeOf rest want

/-- Every listed opcode is above `lo`, in strictly rising order. -/
def risingFrom : Nat → DispatchTable → Bool
  | _, [] => true
  | lo, (k, _) :: rest => decide (lo ≤ k.toNat) && risingFrom (k.toNat + 1) rest

/-- The canonical form of a table: one entry or none per opcode byte (R7). -/
def wf (t : DispatchTable) : Bool := risingFrom 0 t

end DispatchTable

/-- `OOR_POLICY` (R7, R42): what an out-of-range access does. -/
inductive OorPolicy where
  | fault
  | wrap
  deriving DecidableEq, Repr

/-- `CYCLE_OVF` (R7, R82): what the cycle counter does past its width. -/
inductive CycleOverflow where
  | wrap
  | saturate
  deriving DecidableEq, Repr

/-- `N_BIT` (R7, R130): which bit of the result the Negative flag copies; 7 or 6 and nothing else. -/
inductive NegativeBit where
  | bit7
  | bit6
  deriving DecidableEq, Repr

/-- `BASE_COST` (R7, R110): one number per mode, as plain data. -/
structure BaseCosts where
  immediate          : Nat
  zeroPage           : Nat
  zeroPageIndexedByX : Nat
  absolute           : Nat
  absoluteIndexedByX : Nat
  absoluteIndexedByY : Nat
  indirectIndexedByX : Nat
  indirectIndexedByY : Nat
  deriving DecidableEq, Repr

namespace BaseCosts

/-- `BASE_COST(mode)`. -/
def cost (b : BaseCosts) : AddressMode → Nat
  | .immediate => b.immediate
  | .zeroPage => b.zeroPage
  | .zeroPageIndexedByX => b.zeroPageIndexedByX
  | .absolute => b.absolute
  | .absoluteIndexedByX => b.absoluteIndexedByX
  | .absoluteIndexedByY => b.absoluteIndexedByY
  | .indirectIndexedByX => b.indirectIndexedByX
  | .indirectIndexedByY => b.indirectIndexedByY

/-- "integer >= 1 per mode" (R7). -/
def legal (b : BaseCosts) : Bool :=
  decide (1 ≤ b.immediate) && decide (1 ≤ b.zeroPage) && decide (1 ≤ b.zeroPageIndexedByX)
    && decide (1 ≤ b.absolute) && decide (1 ≤ b.absoluteIndexedByX) && decide (1 ≤ b.absoluteIndexedByY)
    && decide (1 ≤ b.indirectIndexedByX) && decide (1 ≤ b.indirectIndexedByY)

end BaseCosts

/-- The configuration record of R7, less the widths that are fixed (REG_W, ADDR_W, PC_W: the types
`Byte` and `Addr`). It is fixed at construction (R20, R170). -/
structure Config where
  memSize       : Nat
  initPc        : Addr
  negativeBit   : NegativeBit
  baseCost      : BaseCosts
  dispatch      : DispatchTable
  oorPolicy     : OorPolicy
  cycleWidth    : Nat
  cycleOverflow : CycleOverflow
  deriving DecidableEq, Repr

/-- The legal values of the parameters (R7): 256 <= MEM_SIZE <= 65536, BASE_COST >= 1, CYCLE_W >= 1, and
a table with one entry or none per byte. The other fields are legal by their types. -/
def Config.legal (c : Config) : Bool :=
  decide (256 ≤ c.memSize) && decide (c.memSize ≤ 65536) && c.baseCost.legal && c.dispatch.wf
    && decide (1 ≤ c.cycleWidth)

/-- FREE VALUE: what PC holds after an out-of-range fault, "PC <- unspecified" (R98, R156; D14). The n-th
such value of a run is `freePc n`; it has no body, so nothing can be proved of it (log 3). -/
opaque Config.freePc : Nat → Addr

end Sys2Proof
end

