-- ==== Sys2Proof/Syntax.lean ====
section
/-! DEFINITION. The instructions: one constructor per row of spec/opcode_table.json, and one for each of
the two reserved indirect modes, which the reference table binds to no opcode (log 10). -/

namespace Sys2Proof

/-- A decoded instruction with its operand (R61, R64). -/
inductive Instr where
  /-- `LDA #imm` (R132). -/
  | ldaImmediate (imm : Byte)
  /-- `LDA zp` (R133). -/
  | ldaZeroPage (zz : Byte)
  /-- `LDA zp,X` (R134). -/
  | ldaZeroPageIndexedByX (zz : Byte)
  /-- `LDA abs` (R135). -/
  | ldaAbsolute (addr : Addr)
  /-- `LDA abs,X` (R136). -/
  | ldaAbsoluteIndexedByX (base : Addr)
  /-- `LDA abs,Y` (R137). -/
  | ldaAbsoluteIndexedByY (base : Addr)
  /-- `LDA (zp,X)`: the reserved mode of R119. -/
  | ldaIndirectIndexedByX (zz : Byte)
  /-- `LDA (zp),Y`: the reserved mode of R120. -/
  | ldaIndirectIndexedByY (zz : Byte)
  /-- The default row: a byte with no `DISPATCH` entry (R94). -/
  | unrecognized (op : Byte)
  deriving DecidableEq, Repr

/-- The dispatch entry an instruction is an instance of; none for an unrecognized byte. -/
def Instr.entry : Instr → Option DispatchEntry
  | .ldaImmediate _ => some ⟨.immediate, .lda⟩
  | .ldaZeroPage _ => some ⟨.zeroPage, .lda⟩
  | .ldaZeroPageIndexedByX _ => some ⟨.zeroPageIndexedByX, .lda⟩
  | .ldaAbsolute _ => some ⟨.absolute, .lda⟩
  | .ldaAbsoluteIndexedByX _ => some ⟨.absoluteIndexedByX, .lda⟩
  | .ldaAbsoluteIndexedByY _ => some ⟨.absoluteIndexedByY, .lda⟩
  | .ldaIndirectIndexedByX _ => some ⟨.indirectIndexedByX, .lda⟩
  | .ldaIndirectIndexedByY _ => some ⟨.indirectIndexedByY, .lda⟩
  | .unrecognized _ => none

end Sys2Proof
end

