-- ==== Sys2Proof/WellFormed.lean ====
section
/-! DEFINITION. Which instructions exist under a dispatch table (spec/30_encoding.md R65 to R67). -/

namespace Sys2Proof

/-- Some opcode byte of the table is bound to the mode, with operation LDA. -/
def DispatchTable.binds (t : DispatchTable) (m : AddressMode) : Bool :=
  (t.opcodeOf ⟨m, .lda⟩).isSome

/-- An LDA form exists when its mode is bound (R65, R66); an unrecognized byte is one with no entry (R67). -/
def Instr.wellFormed (t : DispatchTable) : Instr → Bool
  | .ldaImmediate _ => t.binds .immediate
  | .ldaZeroPage _ => t.binds .zeroPage
  | .ldaZeroPageIndexedByX _ => t.binds .zeroPageIndexedByX
  | .ldaAbsolute _ => t.binds .absolute
  | .ldaAbsoluteIndexedByX _ => t.binds .absoluteIndexedByX
  | .ldaAbsoluteIndexedByY _ => t.binds .absoluteIndexedByY
  | .ldaIndirectIndexedByX _ => t.binds .indirectIndexedByX
  | .ldaIndirectIndexedByY _ => t.binds .indirectIndexedByY
  | .unrecognized op => (t.lookup op).isNone

end Sys2Proof
end

