-- ==== Sys2Proof/Decode.lean ====
section
/-! DEFINITION. From bytes to instructions and back (spec/30_encoding.md): the reference opcode table, operand
assembly, the decoder, the encoder, and the two readings of a table word. -/

namespace Sys2Proof

/-- The six entries of R65. 0xA9 and 0xA5 are the source's; the other four are the spec's decision D7, from
general knowledge of the 6502 (log 6). 0xA1 and 0xB1 are not listed (R66). In rising order of opcode. -/
def referenceDispatch : DispatchTable :=
  [ (0xA5, ⟨.zeroPage, .lda⟩),
    (0xA9, ⟨.immediate, .lda⟩),
    (0xAD, ⟨.absolute, .lda⟩),
    (0xB5, ⟨.zeroPageIndexedByX, .lda⟩),
    (0xB9, ⟨.absoluteIndexedByY, .lda⟩),
    (0xBD, ⟨.absoluteIndexedByX, .lda⟩) ]

/-- `zext_16(b)` (R10). -/
def zext16 (b : Byte) : Addr := b.setWidth 16

/-- `hi << 8 | lo`: the byte at the lower address is the low byte (R10, R45). -/
def addrOfBytes (lo hi : Byte) : Addr := hi ++ lo

/-- `a[7:0]` (R10). -/
def lowByte (a : Addr) : Byte := a.extractLsb' 0 8

/-- `a[15:8]`, the page number (R10). -/
def highByte (a : Addr) : Byte := a.extractLsb' 8 8

/-- Column (a) of R110: how many operand bytes follow the opcode. -/
def AddressMode.operandBytes : AddressMode → Nat
  | .immediate => 1
  | .zeroPage => 1
  | .zeroPageIndexedByX => 1
  | .absolute => 2
  | .absoluteIndexedByX => 2
  | .absoluteIndexedByY => 2
  | .indirectIndexedByX => 1
  | .indirectIndexedByY => 1

/-- Operand assembly (R64): the instruction of an entry from its first operand byte and, for the Absolute
modes, its second. -/
def instrOf (e : DispatchEntry) (b1 b2 : Byte) : Instr :=
  match e.operation, e.mode with
  | .lda, .immediate => .ldaImmediate b1
  | .lda, .zeroPage => .ldaZeroPage b1
  | .lda, .zeroPageIndexedByX => .ldaZeroPageIndexedByX b1
  | .lda, .absolute => .ldaAbsolute (addrOfBytes b1 b2)
  | .lda, .absoluteIndexedByX => .ldaAbsoluteIndexedByX (addrOfBytes b1 b2)
  | .lda, .absoluteIndexedByY => .ldaAbsoluteIndexedByY (addrOfBytes b1 b2)
  | .lda, .indirectIndexedByX => .ldaIndirectIndexedByX b1
  | .lda, .indirectIndexedByY => .ldaIndirectIndexedByY b1

/-- Why bytes are no instruction. A whole instruction is never rejected: an unbound opcode is the
instruction `unrecognized` (R67). -/
inductive DecodeRejection where
  /-- There is no byte at all. -/
  | noOpcode
  /-- The opcode's operand bytes are not all there. -/
  | missingOperand (opcode : Byte)
  deriving DecidableEq, Repr

/-- The decoder: an instruction and the bytes after it (R60 to R64). -/
def decode (t : DispatchTable) : List Byte → Except DecodeRejection (Instr × List Byte)
  | [] => .error .noOpcode
  | op :: rest =>
    match t.lookup op with
    | none => .ok (.unrecognized op, rest)
    | some e =>
      match rest with
      | [] => .error (.missingOperand op)
      | b1 :: rest1 =>
        if e.mode.operandBytes = 1 then .ok (instrOf e b1 0, rest1)
        else
          match rest1 with
          | [] => .error (.missingOperand op)
          | b2 :: rest2 => .ok (instrOf e b1 b2, rest2)

/-- Length of an instruction in bytes (R62). -/
def Instr.length : Instr → Nat
  | .ldaImmediate _ => 2
  | .ldaZeroPage _ => 2
  | .ldaZeroPageIndexedByX _ => 2
  | .ldaAbsolute _ => 3
  | .ldaAbsoluteIndexedByX _ => 3
  | .ldaAbsoluteIndexedByY _ => 3
  | .ldaIndirectIndexedByX _ => 2
  | .ldaIndirectIndexedByY _ => 2
  | .unrecognized _ => 1

/-- The operand bytes in the order they stand in memory (R61). -/
def Instr.operands : Instr → List Byte
  | .ldaImmediate imm => [imm]
  | .ldaZeroPage zz => [zz]
  | .ldaZeroPageIndexedByX zz => [zz]
  | .ldaAbsolute addr => [lowByte addr, highByte addr]
  | .ldaAbsoluteIndexedByX base => [lowByte base, highByte base]
  | .ldaAbsoluteIndexedByY base => [lowByte base, highByte base]
  | .ldaIndirectIndexedByX zz => [zz]
  | .ldaIndirectIndexedByY zz => [zz]
  | .unrecognized _ => []

/-- The opcode byte of an instruction: the table's byte for its entry, or the unrecognized byte itself. -/
def Instr.opcode (t : DispatchTable) (i : Instr) : Option Byte :=
  match i with
  | .unrecognized op => if (t.lookup op).isNone then some op else none
  | .ldaImmediate _ => t.opcodeOf ⟨.immediate, .lda⟩
  | .ldaZeroPage _ => t.opcodeOf ⟨.zeroPage, .lda⟩
  | .ldaZeroPageIndexedByX _ => t.opcodeOf ⟨.zeroPageIndexedByX, .lda⟩
  | .ldaAbsolute _ => t.opcodeOf ⟨.absolute, .lda⟩
  | .ldaAbsoluteIndexedByX _ => t.opcodeOf ⟨.absoluteIndexedByX, .lda⟩
  | .ldaAbsoluteIndexedByY _ => t.opcodeOf ⟨.absoluteIndexedByY, .lda⟩
  | .ldaIndirectIndexedByX _ => t.opcodeOf ⟨.indirectIndexedByX, .lda⟩
  | .ldaIndirectIndexedByY _ => t.opcodeOf ⟨.indirectIndexedByY, .lda⟩

/-- The encoder (R61): the bytes of an instruction, none where the table has no opcode for it. An assembler
for CORE so rejects the two unbound forms (R69). -/
def encode (t : DispatchTable) (i : Instr) : Option (List Byte) :=
  (i.opcode t).map fun op => op :: i.operands

/-- The bytes of a table word: bit 0 is the least significant bit of the first byte, and a later byte's bits
count on from it; above `nbits` every bit is 0, up to the longest instruction (three bytes). -/
def bytesOfTableWord (nbits w : Nat) : List Byte :=
  let v := w % 2 ^ nbits
  [BitVec.ofNat 8 v, BitVec.ofNat 8 (v / 256), BitVec.ofNat 8 (v / 65536)]

/-- The instruction the decoder reads from a table word, under the reference opcode table. -/
def decodeTableWord (nbits w : Nat) : Option Instr :=
  match decode referenceDispatch (bytesOfTableWord nbits w) with
  | .ok (i, _) => some i
  | .error _ => none

end Sys2Proof
end

