-- ==== Sys2Proof/Machine/Parameters.lean ====
section
/-! DEFINITION. The reference configuration: the values this spec takes for the parameters of
spec/00_scope.md R7 (column "this spec's value"). Every other legal configuration runs too. -/

namespace Sys2Proof

/-- Column (c) of R110. The numbers are the spec's decision D6, from general knowledge (log 6). -/
def referenceBaseCosts : BaseCosts where
  immediate := 2
  zeroPage := 3
  zeroPageIndexedByX := 4
  absolute := 4
  absoluteIndexedByX := 4
  absoluteIndexedByY := 4
  indirectIndexedByX := 6
  indirectIndexedByY := 5

/-- The configuration named "this spec's value" in R7 (decisions D1 to D9, D12; log 6). -/
def Config.reference : Config where
  memSize := 32768
  initPc := 0x0000
  negativeBit := .bit7
  baseCost := referenceBaseCosts
  dispatch := referenceDispatch
  oorPolicy := .fault
  cycleWidth := 64
  cycleOverflow := .wrap

end Sys2Proof
end

