-- ==== Sys2Proof/Machine/State.lean ====
section
/-! DEFINITION. The state of CORE (spec/10_state.md R20), the reasons a step can stop, and the state after
construction (R37). -/

namespace Sys2Proof.Machine

/-- `Mem` (R34): address and byte pairs, addresses strictly rising, no entry holding what an unlisted
address reads as. -/
abbrev Memory := List Host.Cell

/-- What an address no entry lists reads as. DESIGN CHOICE (log 2): the spec says such a byte is
unspecified. -/
def Memory.unlisted : Byte := 0x00

/-- Addresses at least `lo` and strictly rising, no entry equal to an unlisted byte. -/
def Memory.risingFrom : Nat → Memory → Bool
  | _, [] => true
  | lo, (k, v) :: rest => decide (lo ≤ k) && decide (v ≠ Memory.unlisted) && Memory.risingFrom (k + 1) rest

/-- The canonical form of a memory. -/
def Memory.wf (m : Memory) : Bool := Memory.risingFrom 0 m

/-- Every listed address is below `size`: memory is never resized (R34). -/
def Memory.below (size : Nat) (m : Memory) : Bool := m.all fun c => decide (c.1 < size)

/-- The condition of R152: an access at an address that is out of range. -/
structure OutOfRange where
  addr : Addr
  deriving DecidableEq, Repr

/-- What a step returns to its caller (R91). -/
inductive Report where
  /-- An instruction of `DISPATCH` ran, at this cost. -/
  | executed (cost : Nat)
  /-- The fetched byte has no entry. -/
  | unrecognized
  /-- An access was out of range under OOR_POLICY = Fault. -/
  | faulted (why : OutOfRange)
  deriving DecidableEq, Repr

/-- The state of CORE: the tuple of R20, the configuration it was constructed with, and the model's own
`report` and `freeIndex` (log 3, log 4). -/
structure State where
  /-- The parameters, fixed at construction; no step changes them (R20; log 5). -/
  config     : Config
  /-- `A`, the accumulator (R21). -/
  a          : Byte
  /-- `X`, index register (R22). -/
  x          : Byte
  /-- `Y`, index register (R23). -/
  y          : Byte
  /-- `PC` (R25). -/
  pc         : Addr
  /-- `Z`, the Zero flag (R27). -/
  z          : Bool
  /-- `N`, the Negative flag (R27). -/
  n          : Bool
  /-- `Mem` (R34). -/
  mem        : Memory
  /-- `Fault`, the fault latch (R35). -/
  faultLatch : Option OutOfRange
  /-- `Counter`, below 2^CYCLE_W (R32; log 11). -/
  counter    : Nat
  /-- What the last step returned; none before the first step (R91; log 4). -/
  report     : Option Report
  /-- How many free values have been drawn (log 3). -/
  freeIndex  : Nat
  deriving DecidableEq, Repr

/-- Why the machine stops. -/
inductive Fault where
  /-- Raised by `step` when the fault latch is set: the core is halted and "has no step" (R91, R157).
  Safe: the spec gives no outcome there. -/
  | halted (why : OutOfRange)
  deriving DecidableEq, Repr

/-- Why a request is turned away. -/
inductive Refusal where
  /-- Raised by an arm of `exec` whose instruction has no meaning yet; no arm is left. Safe: the model
  stops where the hardware goes on. -/
  | notModelled (mnemonic : String)
  /-- Raised by the host operation `construct` on parameters outside the legal values of R7. Safe: the
  source describes no such machine (D3). -/
  | illegalConfiguration
  /-- Raised by the host operation `load` when a byte would lie outside memory (R43, R102). Safe: the
  spec says the operation is refused and changes nothing. -/
  | loadOutsideMemory
  /-- Raised by the host operations `load`, `setPC`, `setA`, `setX`, `setY` after the first step (R103).
  Safe: the spec permits no such mutation. -/
  | afterFirstStep
  /-- Raised by the host operation `counterPulse` on a negative or over-wide operand (R83). Safe: the
  spec says the request is refused and changes nothing. -/
  | pulseOperand
  deriving DecidableEq, Repr

/-- The outcome of an instruction, a step or a host operation. -/
abbrev StepResult := Host.Outcome State Fault Refusal

/-- The machine right after construction with the reference configuration, before any host operation
(R37, R170 to R172). PC, Fault and Counter are the spec's; the zeros in A, X, Y, Z, N are the model's
DESIGN CHOICE where the spec says "unspecified" (log 1), memory lists nothing (log 2), and `report` and
`freeIndex` are the model's own (log 3, log 4). -/
def State.reset : State where
  config := Config.reference
  a := 0x00
  x := 0x00
  y := 0x00
  pc := Config.reference.initPc
  z := false
  n := false
  mem := []
  faultLatch := none
  counter := 0
  report := none
  freeIndex := 0

end Sys2Proof.Machine
end

