-- ==== Sys2Proof/Machine/Ops.lean ====
section
/-! DEFINITION. The named operations over memory, the cycle counter and the program counter, and the taking of
an out-of-range fault (spec/20_memory.md, spec/40_cycle_accounting.md, spec/60_exceptions.md). -/

namespace Sys2Proof.Machine

/-- One byte of a memory. -/
def Memory.read : Memory → Nat → Byte
  | [], _ => Memory.unlisted
  | (k, v) :: rest, a => if a = k then v else Memory.read rest a

/-- A byte put in front of a memory whose addresses are all higher; an unlisted byte is not listed. -/
def Memory.put (a : Nat) (v : Byte) (rest : Memory) : Memory :=
  if v = Memory.unlisted then rest else (a, v) :: rest

/-- A memory with one byte written, in canonical form again. -/
def Memory.write : Memory → Nat → Byte → Memory
  | [], a, v => Memory.put a v []
  | (k, w) :: rest, a, v =>
    if a < k then Memory.put a v ((k, w) :: rest)
    else if a = k then Memory.put a v rest
    else (k, w) :: Memory.write rest a v

/-- Bytes written at `a`, `a + 1`, ... in that order. -/
def Memory.writeBytes : Memory → Nat → List Byte → Memory
  | m, _, [] => m
  | m, a, v :: rest => Memory.writeBytes (Memory.write m a v) (a + 1) rest

/-- What an access answers: a value, or the out-of-range condition it raises (R42). -/
abbrev Access (α : Type) := Except OutOfRange α

/-- The index into `Mem` that an access at `addr` uses (R42), none when it raises. -/
def memIndex (c : Config) (addr : Addr) : Option Nat :=
  if addr.toNat < c.memSize then some addr.toNat
  else
    match c.oorPolicy with
    | .wrap => some (addr.toNat % c.memSize)
    | .fault => none

/-- `MemRead(addr, 1)` (R42): the only memory access the core performs. -/
def memRead (s : State) (addr : Addr) : Access Byte :=
  match memIndex s.config addr with
  | some k => .ok (Memory.read s.mem k)
  | none => .error ⟨addr⟩

/-- The cost value of an outcome (R91): 0 for Unrecognized, and a fault reads as 0. -/
def Report.cost : Report → Nat
  | .executed c => c
  | .unrecognized => 0
  | .faulted _ => 0

/-- The code of an outcome (R150). -/
def Report.code : Report → Nat
  | .executed _ => 0
  | .unrecognized => 1
  | .faulted _ => 2

/-- `Counter + n` under the overflow policy and the width (R82, R84). -/
def counterAfterPulse (c : Config) (counter n : Nat) : Nat :=
  match c.cycleOverflow with
  | .wrap => (counter + n) % 2 ^ c.cycleWidth
  | .saturate => min (counter + n) (2 ^ c.cycleWidth - 1)

/-- `Counter.pulse(n)` (R82). -/
def pulse (n : Nat) (s : State) : State :=
  { s with counter := counterAfterPulse s.config s.counter n }

/-- `Counter.reset()` (R81). -/
def counterReset (s : State) : State :=
  { s with counter := 0 }

/-- PC moved past `k` bytes, modulo 65536 (R25, R123). -/
def advancePc (k : Nat) (s : State) : State :=
  { s with pc := s.pc + BitVec.ofNat 16 k }

/-- The end of a step that ran an instruction (R97): the whole cost is pulsed once and reported. -/
def reportExecuted (cost : Nat) (s : State) : State :=
  { pulse cost s with report := some (.executed cost) }

/-- Taking the out-of-range fault (R98, R152, R156): the latch records the address, the step reports it,
PC takes a free value (log 3), and A, X, Y, Z, N, Mem and Counter keep their values. There is no return
from it (R157): only a new construction clears the latch (`State.construct`). -/
def takeFault (why : OutOfRange) (s : State) : State :=
  { s with
    faultLatch := some why
    pc := Config.freePc s.freeIndex
    freeIndex := s.freeIndex + 1
    report := some (.faulted why) }

/-- Fetching an instruction (R57, R61, R92, R93): the opcode at PC, then each operand byte in increasing
address order, the first unreadable one raising. -/
def fetchInstr (s : State) : Access Instr := do
  let op ← memRead s s.pc
  match s.config.dispatch.lookup op with
  | none => .ok (.unrecognized op)
  | some e =>
    let b1 ← memRead s (s.pc + 1)
    if e.mode.operandBytes = 1 then .ok (instrOf e b1 0)
    else
      let b2 ← memRead s (s.pc + 2)
      .ok (instrOf e b1 b2)

/-- What the spec leaves unspecified after construction (R37): "a model takes it as a free input (a draw)".
`mem` lists the bytes of memory from address 0 up; those past the list read as unlisted (log 16). -/
structure Draws where
  a   : Byte
  x   : Byte
  y   : Byte
  z   : Bool
  n   : Bool
  mem : List Byte
  deriving DecidableEq, Repr

/-- The machine `construct(config)` builds (R37, R170). -/
def State.construct (c : Config) (d : Draws) : State where
  config := c
  a := d.a
  x := d.x
  y := d.y
  pc := c.initPc
  z := d.z
  n := d.n
  mem := Memory.writeBytes [] 0 (d.mem.take c.memSize)
  faultLatch := none
  counter := 0
  report := none
  freeIndex := 0

end Sys2Proof.Machine
end

