-- ==== Sys2Proof/Machine/Flags.lean ====
section
/-! DEFINITION. The flag-update unit (spec/43_load_accumulator.md R130). -/

namespace Sys2Proof.Machine

/-- The index of the bit that N copies (R7, R130). -/
def negativeIndex : NegativeBit → Nat
  | .bit7 => 7
  | .bit6 => 6

/-- `r = 0x00`. -/
def zeroOf (r : Byte) : Bool := r == 0x00

/-- `r[N_BIT]`. -/
def negativeOf (b : NegativeBit) (r : Byte) : Bool := r.getLsbD (negativeIndex b)

/-- `SetZN(r)` (R130): the only writer of Z and N (R28). -/
def setZN (r : Byte) (s : State) : State :=
  { s with z := zeroOf r, n := negativeOf s.config.negativeBit r }

end Sys2Proof.Machine
end

