-- ==== Sys2Proof/Machine/Operands.lean ====
section
/-! DEFINITION. The addressing-mode resolver and page-boundary detection (spec/42_addressing_modes.md), on the
operand bytes of a decoded instruction: one definition per mode, then the operand's value. -/

namespace Sys2Proof.Machine

/-- What a mode resolves to (R111). -/
inductive Operand where
  | literal (v : Byte)
  | address (ea : Addr)
  deriving DecidableEq, Repr

/-- The result of the resolver (R111): the operand, and the extra cycles as an explicit value. -/
structure Resolution where
  operand : Operand
  extra   : Nat
  deriving DecidableEq, Repr

/-- Page crossing (R118): the high byte changes. -/
def crossed (base ea : Addr) : Bool := highByte base != highByte ea

/-- Column (d) of R110: whether the mode can incur the page-crossing cycle. -/
def chargesCrossing : AddressMode → Bool
  | .immediate => false
  | .zeroPage => false
  | .zeroPageIndexedByX => false
  | .absolute => false
  | .absoluteIndexedByX => true
  | .absoluteIndexedByY => true
  | .indirectIndexedByX => false
  | .indirectIndexedByY => true

/-- Immediate (R112). -/
def resolveImmediate (b1 : Byte) : Resolution := ⟨.literal b1, 0⟩

/-- ZeroPage (R113). -/
def resolveZeroPage (b1 : Byte) : Resolution := ⟨.address (zext16 b1), 0⟩

/-- ZeroPageIndexedByX (R114): the sum wraps modulo 256. -/
def resolveZeroPageIndexed (b1 index : Byte) : Resolution := ⟨.address (zext16 (b1 + index)), 0⟩

/-- Absolute (R115). -/
def resolveAbsolute (addr : Addr) : Resolution := ⟨.address addr, 0⟩

/-- AbsoluteIndexedByX and AbsoluteIndexedByY (R116, R117): the sum wraps modulo 65536, and a page
crossing costs one extra cycle. -/
def resolveAbsoluteIndexed (base : Addr) (index : Byte) : Resolution :=
  let ea := base + zext16 index
  ⟨.address ea, if crossed base ea then 1 else 0⟩

/-- A 16-bit pointer read from the zero page, its second byte's address wrapping inside the page
(R119, R120). -/
def readPointer (s : State) (p : Byte) : Access Addr := do
  let lo ← memRead s (zext16 p)
  let hi ← memRead s (zext16 (p + 1))
  .ok (addrOfBytes lo hi)

/-- IndirectIndexedByX (R119): X is added before the pointer is read. -/
def resolveIndirectIndexedByX (s : State) (b1 : Byte) : Access Resolution := do
  let ea ← readPointer s (b1 + s.x)
  .ok ⟨.address ea, 0⟩

/-- IndirectIndexedByY (R120): Y is added after the pointer is read. -/
def resolveIndirectIndexedByY (s : State) (b1 : Byte) : Access Resolution := do
  let base ← readPointer s b1
  .ok (resolveAbsoluteIndexed base s.y)

/-- `OperandValue(operand)` (R121). -/
def operandValue (s : State) : Operand → Access Byte
  | .literal v => .ok v
  | .address ea => memRead s ea

end Sys2Proof.Machine
end

