-- ==== Sys2Proof/Machine/LoadAccumulator.lean ====
section
/-! DEFINITION. LDA in every addressing mode (spec/43_load_accumulator.md). A meaning starts with PC at the
opcode and ends with PC past the instruction. -/

namespace Sys2Proof.Machine

/-- `Execute(LDA, v)` (R131): writes A, Z and N and nothing else. -/
def executeLda (v : Byte) (s : State) : State := setZN v { s with a := v }

/-- The end of an LDA whose operand value is known (R97, R131): A and the flags, PC past the opcode and the
operand bytes, and base cost plus extra cycles pulsed once. -/
def finishLda (mode : AddressMode) (v : Byte) (extra : Nat) (s : State) : State :=
  reportExecuted (s.config.baseCost.cost mode + extra)
    (advancePc (1 + mode.operandBytes) (executeLda v s))

/-- An LDA from its resolved operand (R95 to R98): the operand value is read, and either the load is done
or the out-of-range fault is taken. -/
def loadAccumulator (mode : AddressMode) (resolved : Access Resolution) (s : State) : StepResult :=
  match resolved with
  | .error why => .next (takeFault why s)
  | .ok r =>
    match operandValue s r.operand with
    | .error why => .next (takeFault why s)
    | .ok v => .next (finishLda mode v r.extra s)

/-- `LDA #imm` (R132). -/
def execLdaImmediate (imm : Byte) (s : State) : StepResult :=
  loadAccumulator .immediate (.ok (resolveImmediate imm)) s

/-- `LDA zp` (R133). -/
def execLdaZeroPage (zz : Byte) (s : State) : StepResult :=
  loadAccumulator .zeroPage (.ok (resolveZeroPage zz)) s

/-- `LDA zp,X` (R134). -/
def execLdaZeroPageIndexedByX (zz : Byte) (s : State) : StepResult :=
  loadAccumulator .zeroPageIndexedByX (.ok (resolveZeroPageIndexed zz s.x)) s

/-- `LDA abs` (R135). -/
def execLdaAbsolute (addr : Addr) (s : State) : StepResult :=
  loadAccumulator .absolute (.ok (resolveAbsolute addr)) s

/-- `LDA abs,X` (R136). -/
def execLdaAbsoluteIndexedByX (base : Addr) (s : State) : StepResult :=
  loadAccumulator .absoluteIndexedByX (.ok (resolveAbsoluteIndexed base s.x)) s

/-- `LDA abs,Y` (R137). -/
def execLdaAbsoluteIndexedByY (base : Addr) (s : State) : StepResult :=
  loadAccumulator .absoluteIndexedByY (.ok (resolveAbsoluteIndexed base s.y)) s

/-- `LDA (zp,X)`, where a configuration binds the mode (R119; log 10). -/
def execLdaIndirectIndexedByX (zz : Byte) (s : State) : StepResult :=
  loadAccumulator .indirectIndexedByX (resolveIndirectIndexedByX s zz) s

/-- `LDA (zp),Y`, where a configuration binds the mode (R120; log 10). -/
def execLdaIndirectIndexedByY (zz : Byte) (s : State) : StepResult :=
  loadAccumulator .indirectIndexedByY (resolveIndirectIndexedByY s zz) s

end Sys2Proof.Machine
end

