-- ==== Sys2Proof/Machine/Unrecognized.lean ====
section
/-! DEFINITION. The default row of the opcode table: an unrecognized opcode (spec/41_step.md R94,
spec/60_exceptions.md R151). -/

namespace Sys2Proof.Machine

/-- A byte with no `DISPATCH` entry (R94, R151): PC past the byte, the zero-cost outcome reported, and no
other write. Which byte it was plays no part. -/
def execUnrecognized (_op : Byte) (s : State) : StepResult :=
  .next { advancePc 1 s with report := some .unrecognized }

end Sys2Proof.Machine
end

