-- ==== Sys2Proof/Machine/Dispatch.lean ====
section
/-! DEFINITION. One arm per constructor of Instr. -/

namespace Sys2Proof.Machine

/-- The meaning of an instruction at the state in which PC holds the address of its opcode. -/
def exec (i : Instr) (s : State) : Host.Outcome State Fault Refusal :=
  match i with
  | .ldaImmediate imm => Sys2Proof.Machine.execLdaImmediate imm s
  | .ldaZeroPage zz => Sys2Proof.Machine.execLdaZeroPage zz s
  | .ldaZeroPageIndexedByX zz => Sys2Proof.Machine.execLdaZeroPageIndexedByX zz s
  | .ldaAbsolute addr => Sys2Proof.Machine.execLdaAbsolute addr s
  | .ldaAbsoluteIndexedByX base => Sys2Proof.Machine.execLdaAbsoluteIndexedByX base s
  | .ldaAbsoluteIndexedByY base => Sys2Proof.Machine.execLdaAbsoluteIndexedByY base s
  | .ldaIndirectIndexedByX zz => Sys2Proof.Machine.execLdaIndirectIndexedByX zz s
  | .ldaIndirectIndexedByY zz => Sys2Proof.Machine.execLdaIndirectIndexedByY zz s
  | .unrecognized op => Sys2Proof.Machine.execUnrecognized op s

end Sys2Proof.Machine
end

