-- ==== Sys2Proof/Machine/Step.lean ====
section
/-! DEFINITION. One step (spec/41_step.md R98), and the placing of a table word where a step fetches. -/

namespace Sys2Proof.Machine

/-- `step()` (R90, R91, R98): a halted core has no step; otherwise the instruction at PC is fetched, an
unreadable byte of it taking the fault, and executed. -/
def step (s : State) : Host.Outcome State Fault Refusal :=
  match s.faultLatch with
  | some why => .fault (.halted why)
  | none =>
    match fetchInstr s with
    | .error why => .next (takeFault why s)
    | .ok i => exec i s

/-- A byte stored where an access at `addr` would read it; an access that would raise stores nothing. -/
def State.placeByte (s : State) (addr : Addr) (v : Byte) : State :=
  match memIndex s.config addr with
  | some k => { s with mem := Memory.write s.mem k v }
  | none => s

/-- The bytes of a table word stored at PC, where the next step fetches, and the latch open, without which
there is no next step (log 9). It stands for the host's loader (R102, R173). -/
def State.withFetchWord (s : State) (nbits w : Nat) : State :=
  match bytesOfTableWord nbits w with
  | [b0, b1, b2] =>
    (((({ s with faultLatch := none } : State).placeByte s.pc b0).placeByte (s.pc + 1) b1).placeByte (s.pc + 2) b2)
  | _ => s

end Sys2Proof.Machine
end

