-- ==== Sys2Proof/Machine/Pseudocode.lean ====
section
/-! DEFINITION. The step as spec/41_step.md R98 writes it, statement by statement: the opcode read, then
`Resolve(mode)` reading the operand bytes at PC and advancing PC past each (spec/42_addressing_modes.md R111 to
R120), then `OperandValue`, `Execute` and the report. `step` (Machine/Step.lean) decodes first and gives each
instruction a meaning of its own; this is the text to hold beside the manual. -/

namespace Sys2Proof.Machine

/-- `b <- MemRead(PC, 1); PC <- (PC + 1) mod 65536`. -/
def readAtPc (s : State) : Access (Byte × State) := do
  let b ← memRead s s.pc
  .ok (b, { s with pc := s.pc + 1 })

/-- `Resolve(mode)` (R111): the operand, the extra cycles, and the state, of which only PC is written. -/
def resolve (mode : AddressMode) (s : State) : Access (Operand × Nat × State) :=
  match mode with
  | .immediate => do
    let (b1, s) ← readAtPc s
    .ok (.literal b1, 0, s)
  | .zeroPage => do
    let (b1, s) ← readAtPc s
    .ok (.address (b1.setWidth 16), 0, s)
  | .zeroPageIndexedByX => do
    let (b1, s) ← readAtPc s
    .ok (.address (BitVec.ofNat 16 ((b1.toNat + s.x.toNat) % 256)), 0, s)
  | .absolute => do
    let (lo, s) ← readAtPc s
    let (hi, s) ← readAtPc s
    .ok (.address (hi.setWidth 16 <<< 8 ||| lo.setWidth 16), 0, s)
  | .absoluteIndexedByX => do
    let (lo, s) ← readAtPc s
    let (hi, s) ← readAtPc s
    let base := hi.setWidth 16 <<< 8 ||| lo.setWidth 16
    let ea := BitVec.ofNat 16 ((base.toNat + s.x.toNat) % 65536)
    .ok (.address ea, if base.toNat / 256 ≠ ea.toNat / 256 then 1 else 0, s)
  | .absoluteIndexedByY => do
    let (lo, s) ← readAtPc s
    let (hi, s) ← readAtPc s
    let base := hi.setWidth 16 <<< 8 ||| lo.setWidth 16
    let ea := BitVec.ofNat 16 ((base.toNat + s.y.toNat) % 65536)
    .ok (.address ea, if base.toNat / 256 ≠ ea.toNat / 256 then 1 else 0, s)
  | .indirectIndexedByX => do
    let (b1, s) ← readAtPc s
    let p := (b1.toNat + s.x.toNat) % 256
    let lo ← memRead s (BitVec.ofNat 16 p)
    let hi ← memRead s (BitVec.ofNat 16 ((p + 1) % 256))
    .ok (.address (hi.setWidth 16 <<< 8 ||| lo.setWidth 16), 0, s)
  | .indirectIndexedByY => do
    let (b1, s) ← readAtPc s
    let lo ← memRead s (b1.setWidth 16)
    let hi ← memRead s (BitVec.ofNat 16 ((b1.toNat + 1) % 256))
    let base := hi.setWidth 16 <<< 8 ||| lo.setWidth 16
    let ea := BitVec.ofNat 16 ((base.toNat + s.y.toNat) % 65536)
    .ok (.address ea, if base.toNat / 256 ≠ ea.toNat / 256 then 1 else 0, s)

/-- `Execute(operation, v)` (R96, R131). -/
def execute (operation : Operation) (v : Byte) (s : State) : State :=
  match operation with
  | .lda =>
    let s := { s with a := v }
    setZN s.a s

/-- The statements of R98 after the halt test, up to the step's outcome or the first raise. -/
def stepBody (s : State) : Access State := do
  let (op, s) ← readAtPc s
  match s.config.dispatch.lookup op with
  | none => .ok { s with report := some .unrecognized }
  | some entry =>
    let (operand, extra, s) ← resolve entry.mode s
    let v ← operandValue s operand
    let s := execute entry.operation v s
    let cost := s.config.baseCost.cost entry.mode + extra
    let s := pulse cost s
    .ok { s with report := some (.executed cost) }

/-- `step()` of R98; a raise anywhere takes the fault from the state before the step. -/
def stepPseudocode (s : State) : StepResult :=
  match s.faultLatch with
  | some why => .fault (.halted why)
  | none =>
    match stepBody s with
    | .ok t => .next t
    | .error why => .next (takeFault why s)

end Sys2Proof.Machine
end

