-- ==== Sys2Proof/Machine/HostInterface.lean ====
section
/-! DEFINITION. The host interface (spec/41_step.md R102, R103): the operations the world outside CORE has on it.
Reading is reading a field of State between steps. -/

namespace Sys2Proof.Machine

/-- The operations of R102. -/
inductive HostOp where
  /-- `construct(config)`; the draws are what the spec leaves unspecified (R37). -/
  | construct (c : Config) (d : Draws)
  /-- `load(addr, bytes)`. -/
  | load (addr : Nat) (bytes : List Byte)
  /-- `setPC(p)`, for 0 <= p <= 0xFFFF. -/
  | setPC (p : Addr)
  /-- `setA(v)`. -/
  | setA (v : Byte)
  /-- `setX(v)`. -/
  | setX (v : Byte)
  /-- `setY(v)`. -/
  | setY (v : Byte)
  /-- `step()`. -/
  | step
  /-- `Counter.reset()`. -/
  | counterReset
  /-- `Counter.pulse(n)`, default n = 1 (R82); a negative n is expressible so that its refusal is (R83). -/
  | counterPulse (n : Int := 1)
  deriving DecidableEq, Repr

/-- `load` (R43, R102): every byte, or none when one would lie outside memory. -/
def hostLoad (addr : Nat) (bytes : List Byte) (s : State) : StepResult :=
  if bytes = [] ∨ addr + bytes.length ≤ s.config.memSize then
    .next { s with mem := Memory.writeBytes s.mem addr bytes }
  else .refused .loadOutsideMemory

/-- An operation that is allowed only before the first step (R103); `report` says whether one has
returned (log 13). -/
def beforeFirstStep (s : State) (allowed : StepResult) : StepResult :=
  match s.report with
  | none => allowed
  | some _ => .refused .afterFirstStep

/-- `Counter.pulse(n)` asked by the host (R82, R83). -/
def hostPulse (n : Int) (s : State) : StepResult :=
  if 0 ≤ n ∧ n ≤ 2 ^ s.config.cycleWidth - 1 then .next (pulse n.toNat s)
  else .refused .pulseOperand

/-- One host operation (R102). A refused operation changes nothing: the machine stays at `s`. -/
def hostOp (op : HostOp) (s : State) : StepResult :=
  match op with
  | .construct c d => if c.legal then .next (State.construct c d) else .refused .illegalConfiguration
  | .load addr bytes => beforeFirstStep s (hostLoad addr bytes s)
  | .setPC p => beforeFirstStep s (.next { s with pc := p })
  | .setA v => beforeFirstStep s (.next { s with a := v })
  | .setX v => beforeFirstStep s (.next { s with x := v })
  | .setY v => beforeFirstStep s (.next { s with y := v })
  | .step => step s
  | .counterReset => .next (counterReset s)
  | .counterPulse n => hostPulse n s

end Sys2Proof.Machine
end

