-- ==== Sys2Proof/Safety.lean ====
section
/-! DEFINITION. What counts as a consistent state and as a safe run, in the terms claims use. -/

namespace Sys2Proof.Machine

/-- The latch and the report agree (R35, R91, R152): a set latch names an address outside memory under
OOR_POLICY = Fault and is what the last step reported; an open latch means no step has faulted. -/
def State.latchConsistent (s : State) : Bool :=
  match s.faultLatch with
  | some why =>
    decide (s.config.oorPolicy = .fault) && decide (s.config.memSize ≤ why.addr.toNat)
      && decide (s.report = some (.faulted why))
  | none =>
    match s.report with
    | some (.faulted _) => false
    | some (.executed _) => true
    | some .unrecognized => true
    | none => true

/-- An executed step reports at least one cycle, so that cost 0 means Unrecognized (R91). -/
def State.reportedCostPositive (s : State) : Bool :=
  match s.report with
  | some (.executed c) => decide (1 ≤ c)
  | some .unrecognized => true
  | some (.faulted _) => true
  | none => true

/-- The invariant of the machine: legal parameters (R7), memory in canonical form and inside MEM_SIZE (R34),
the counter inside its width (R32), the latch and the report in agreement, and a positive executed cost. -/
def State.inv (s : State) : Bool :=
  s.config.legal && Memory.wf s.mem && Memory.below s.config.memSize s.mem
    && decide (s.counter < 2 ^ s.config.cycleWidth) && s.latchConsistent && s.reportedCostPositive

/-- Z and N are what `SetZN` makes of A: "Flags reflect only the most recently executed
register-affecting instruction" (R29). -/
def State.flagsReflectA (s : State) : Bool :=
  (s.z == zeroOf s.a) && (s.n == negativeOf s.config.negativeBit s.a)

/-- `k` steps of a run, stopping at the first step that has no next state (R104). -/
def runSteps : Nat → State → StepResult
  | 0, s => .next s
  | k + 1, s =>
    match step s with
    | .next t => runSteps k t
    | .fault r => .fault r
    | .refused r => .refused r

/-- The sum of the costs that `k` steps return, from `s` on; nothing after a stop (R88). -/
def costOfRun : Nat → State → Nat
  | 0, _ => 0
  | k + 1, s =>
    match step s with
    | .next t => (t.report.map Report.cost).getD 0 + costOfRun k t
    | .fault _ => 0
    | .refused _ => 0

/-- A safe run of `k` steps: every step has an outcome and none takes the fault (R104, R176). -/
def runsSafely (k : Nat) (s : State) : Bool :=
  match runSteps k s with
  | .next t => t.faultLatch.isNone
  | .fault _ => false
  | .refused _ => false

end Sys2Proof.Machine
end

