-- ==== Sys2Proof/Certificates/Slice0/Obligations.lean ====
section
/-! DEFINITION. The statements for the provers. Each docstring names the rules of spec/ it formalises; where a
clause rests on a decision D<n> of spec/92_eei_decisions.md or on a log entry of the model, it says so. -/

namespace Sys2Proof.Machine.Claims

/-- An access at `a` answers a byte (R42): the address is in memory, or the policy is Wrap. -/
abbrev readable (s : State) (a : Addr) : Prop :=
  a.toNat < s.config.memSize ∨ s.config.oorPolicy = .wrap

/-- The byte a readable access at `a` answers (R42): `a mod MEM_SIZE` is `a` itself when in range. -/
def byteAt (s : State) (a : Addr) : Byte := Memory.read s.mem (a.toNat % s.config.memSize)

/-- The address `k` bytes after PC, modulo 65536 (R25, R61). -/
def afterPc (s : State) (k : Nat) : Addr := BitVec.ofNat 16 (s.pc.toNat + k)

/-- The `k` bytes from PC on. -/
def bytesFromPc (s : State) (k : Nat) : List Byte := (List.range k).map fun j => byteAt s (afterPc s j)

/-- Bit N_BIT of a byte, by its value (R130). -/
def negativeValue (b : NegativeBit) (v : Byte) : Bool :=
  match b with
  | .bit7 => decide (128 ≤ v.toNat)
  | .bit6 => decide (64 ≤ v.toNat % 128)

/-- The counter after `cost` more cycles (R82). -/
def counterPlus (s : State) (cost : Nat) : Nat :=
  match s.config.cycleOverflow with
  | .wrap => (s.counter + cost) % 2 ^ s.config.cycleWidth
  | .saturate => min (s.counter + cost) (2 ^ s.config.cycleWidth - 1)

/-- The state after an LDA of `length` bytes that loads `v` at `cost` cycles: these fields and no other. -/
def loaded (s : State) (v : Byte) (length cost : Nat) : State :=
  { s with
    a := v
    z := decide (v.toNat = 0)
    n := negativeValue s.config.negativeBit v
    pc := BitVec.ofNat 16 (s.pc.toNat + length)
    counter := counterPlus s cost
    report := some (.executed cost) }

/-- The state after an unrecognized byte (R94): PC past it and the zero-cost report. -/
def skipped (s : State) : State :=
  { s with pc := BitVec.ofNat 16 (s.pc.toNat + 1), report := some .unrecognized }

/-- `t` is `s` with the out-of-range fault at `addr` taken (R152): the latch, the report, some PC (a free
value, log 3) and the model's draw index; every other field as in `s`. -/
def faultTakenAt (s : State) (addr : Addr) (t : State) : Prop :=
  ∃ p : Addr, t = { s with
    faultLatch := some ⟨addr⟩
    pc := p
    freeIndex := s.freeIndex + 1
    report := some (.faulted ⟨addr⟩) }

/-- The page-crossing cycle of an indexed base (R118): the low byte and the index carry. -/
def crossingCycle (base : Addr) (index : Byte) : Nat :=
  if 256 ≤ base.toNat % 256 + index.toNat then 1 else 0

/-- A base address and an index, modulo 65536 (R116, R117). -/
def indexed (base : Addr) (index : Byte) : Addr := BitVec.ofNat 16 (base.toNat + index.toNat)

/-- The little-endian pointer in the zero page at `p`, its high byte's address wrapping (R119, R120). -/
def zeroPagePointer (s : State) (p : Nat) : Addr :=
  BitVec.ofNat 16 ((Memory.read s.mem (p % 256)).toNat + 256 * (Memory.read s.mem ((p + 1) % 256)).toNat)

/-- Two states that differ at most in what only timing touches: BASE_COST, Counter and the report (R177). -/
def sameButTiming (s t : State) : Prop :=
  t = { s with
    config := { s.config with baseCost := t.config.baseCost }
    counter := t.counter
    report := t.report }

end Sys2Proof.Machine.Claims

open Sys2Proof Sys2Proof.Machine Sys2Proof.Machine.Claims

/-! ## Encoding -/

/-- R65, R66: the reference table binds six bytes and no other, and words written from the encodings decode.
The four bytes 0xB5, 0xAD, 0xBD, 0xB9 are the spec's decision D7 (log 6). -/
def Obligations.ReferenceTableBindsSixOpcodes : Prop :=
  (∀ op : Byte, (referenceDispatch.lookup op).isSome
      ↔ op = 0xA9 ∨ op = 0xA5 ∨ op = 0xB5 ∨ op = 0xAD ∨ op = 0xBD ∨ op = 0xB9) ∧
  decode referenceDispatch [0b10101001, 0x42] = .ok (.ldaImmediate 0x42, []) ∧
  decode referenceDispatch [0b10100101, 0x10] = .ok (.ldaZeroPage 0x10, []) ∧
  decode referenceDispatch [0b10110101, 0x01] = .ok (.ldaZeroPageIndexedByX 0x01, []) ∧
  decode referenceDispatch [0b10101101, 0x34, 0x12] = .ok (.ldaAbsolute 0x1234, []) ∧
  decode referenceDispatch [0b10111101, 0xF0, 0x12] = .ok (.ldaAbsoluteIndexedByX 0x12F0, []) ∧
  decode referenceDispatch [0b10111001, 0xFF, 0x20] = .ok (.ldaAbsoluteIndexedByY 0x20FF, []) ∧
  decode referenceDispatch [0xA1, 0x20] = .ok (.unrecognized 0xA1, [0x20]) ∧
  decode referenceDispatch [0xB1, 0x20] = .ok (.unrecognized 0xB1, [0x20])

/-- R64: how each mode's operand is assembled from the bytes after the opcode, under any table. -/
def Obligations.OperandAssemblyOfEveryMode : Prop :=
  ∀ (t : DispatchTable) (op b1 b2 : Byte) (rest : List Byte),
    (t.lookup op = some ⟨.immediate, .lda⟩ →
      decode t (op :: b1 :: rest) = .ok (.ldaImmediate b1, rest)) ∧
    (t.lookup op = some ⟨.zeroPage, .lda⟩ →
      decode t (op :: b1 :: rest) = .ok (.ldaZeroPage b1, rest)) ∧
    (t.lookup op = some ⟨.zeroPageIndexedByX, .lda⟩ →
      decode t (op :: b1 :: rest) = .ok (.ldaZeroPageIndexedByX b1, rest)) ∧
    (t.lookup op = some ⟨.absolute, .lda⟩ →
      decode t (op :: b1 :: b2 :: rest)
        = .ok (.ldaAbsolute (BitVec.ofNat 16 (b1.toNat + 256 * b2.toNat)), rest)) ∧
    (t.lookup op = some ⟨.absoluteIndexedByX, .lda⟩ →
      decode t (op :: b1 :: b2 :: rest)
        = .ok (.ldaAbsoluteIndexedByX (BitVec.ofNat 16 (b1.toNat + 256 * b2.toNat)), rest)) ∧
    (t.lookup op = some ⟨.absoluteIndexedByY, .lda⟩ →
      decode t (op :: b1 :: b2 :: rest)
        = .ok (.ldaAbsoluteIndexedByY (BitVec.ofNat 16 (b1.toNat + 256 * b2.toNat)), rest)) ∧
    (t.lookup op = some ⟨.indirectIndexedByX, .lda⟩ →
      decode t (op :: b1 :: rest) = .ok (.ldaIndirectIndexedByX b1, rest)) ∧
    (t.lookup op = some ⟨.indirectIndexedByY, .lda⟩ →
      decode t (op :: b1 :: rest) = .ok (.ldaIndirectIndexedByY b1, rest))

/-- R60 to R64: under any canonical table, the bytes of a well-formed instruction decode to that instruction,
with every operand at every value, and leave the rest of the input. -/
def Obligations.EncodedInstructionDecodesBack : Prop :=
  ∀ (t : DispatchTable) (i : Instr), t.wf = true → i.wellFormed t = true →
    ∃ bs : List Byte, encode t i = some bs ∧ bs.length = i.length ∧
      ∀ rest : List Byte, decode t (bs ++ rest) = .ok (i, rest)

/-- R60 to R67: what the decoder reads is well formed, under any table; under the reference table, where no
two bytes are bound to one mode, encoding it gives back exactly the bytes that were read. -/
def Obligations.DecodedInstructionEncodesBack : Prop :=
  (∀ (t : DispatchTable) (bs rest : List Byte) (i : Instr),
    decode t bs = .ok (i, rest) → i.wellFormed t = true) ∧
  (∀ (bs rest : List Byte) (i : Instr), decode referenceDispatch bs = .ok (i, rest) →
    ∃ enc : List Byte, encode referenceDispatch i = some enc ∧ bs = enc ++ rest)

/-- R62: the opcode byte alone tells the length, and a whole instruction is never rejected. -/
def Obligations.DecoderRejectsOnlyShortInput : Prop :=
  ∀ (t : DispatchTable) (op : Byte) (rest : List Byte),
    let length := match t.lookup op with
      | none => 1
      | some e => 1 + (match e.mode with
          | .absolute => 2 | .absoluteIndexedByX => 2 | .absoluteIndexedByY => 2
          | .immediate => 1 | .zeroPage => 1 | .zeroPageIndexedByX => 1
          | .indirectIndexedByX => 1 | .indirectIndexedByY => 1)
    decode t [] = .error .noOpcode ∧
    ((op :: rest).length < length → decode t (op :: rest) = .error (.missingOperand op)) ∧
    (length ≤ (op :: rest).length →
      ∃ i : Instr, i.length = length ∧ decode t (op :: rest) = .ok (i, (op :: rest).drop length))

/-! ## What each instruction does -/

/-- R130: `SetZN`. The parameter N_BIT, 7 in the reference configuration, is the spec's decision D5. -/
def Obligations.SetZnWritesZeroAndNegative : Prop :=
  (∀ (r : Byte) (s : State), setZN r s =
    { s with z := decide (r.toNat = 0), n := negativeValue s.config.negativeBit r }) ∧
  Config.reference.negativeBit = .bit7

/-- R131: `Execute(LDA, v)` writes A, Z and N from the operand byte and nothing else. -/
def Obligations.ExecuteLdaWritesAccumulatorAndFlags : Prop :=
  ∀ (v : Byte) (s : State), executeLda v s =
    { s with a := v, z := decide (v.toNat = 0), n := negativeValue s.config.negativeBit v }

/-- R132, after the fetch: an immediate load completes in every state, with its whole frame. -/
def Obligations.LdaImmediateLoadsLiteral : Prop :=
  ∀ (imm : Byte) (s : State),
    exec (.ldaImmediate imm) s = .next (loaded s imm 2 s.config.baseCost.immediate)

/-- R133, after the fetch: MEM_SIZE >= 256 (R7) makes every zero-page load complete. -/
def Obligations.LdaZeroPageLoadsByte : Prop :=
  ∀ (zz : Byte) (s : State), 256 ≤ s.config.memSize →
    exec (.ldaZeroPage zz) s =
      .next (loaded s (Memory.read s.mem zz.toNat) 2 s.config.baseCost.zeroPage)

/-- R134, after the fetch: the address wraps modulo 256 and the wrap costs nothing. -/
def Obligations.LdaZeroPageIndexedWrapsInZeroPage : Prop :=
  ∀ (zz : Byte) (s : State), 256 ≤ s.config.memSize →
    exec (.ldaZeroPageIndexedByX zz) s =
      .next (loaded s (Memory.read s.mem ((zz.toNat + s.x.toNat) % 256)) 2
        s.config.baseCost.zeroPageIndexedByX)

/-- R135, after the fetch: an absolute load completes whenever its address is readable. -/
def Obligations.LdaAbsoluteLoadsByte : Prop :=
  ∀ (addr : Addr) (s : State), readable s addr →
    exec (.ldaAbsolute addr) s = .next (loaded s (byteAt s addr) 3 s.config.baseCost.absolute)

/-- R136, after the fetch: base plus X modulo 65536, one more cycle exactly on a page crossing. -/
def Obligations.LdaAbsoluteIndexedByXLoadsByte : Prop :=
  ∀ (base : Addr) (s : State), readable s (indexed base s.x) →
    exec (.ldaAbsoluteIndexedByX base) s =
      .next (loaded s (byteAt s (indexed base s.x)) 3
        (s.config.baseCost.absoluteIndexedByX + crossingCycle base s.x))

/-- R137, after the fetch: as R136 with Y. -/
def Obligations.LdaAbsoluteIndexedByYLoadsByte : Prop :=
  ∀ (base : Addr) (s : State), readable s (indexed base s.y) →
    exec (.ldaAbsoluteIndexedByY base) s =
      .next (loaded s (byteAt s (indexed base s.y)) 3
        (s.config.baseCost.absoluteIndexedByY + crossingCycle base s.y))

/-- R119 with R131: the reserved mode where a configuration binds it. Its meaning is the spec's decision D8,
from general knowledge of the 6502 (log 10). -/
def Obligations.LdaIndirectIndexedByXLoadsByte : Prop :=
  ∀ (zz : Byte) (s : State), 256 ≤ s.config.memSize →
    readable s (zeroPagePointer s (zz.toNat + s.x.toNat)) →
    exec (.ldaIndirectIndexedByX zz) s =
      .next (loaded s (byteAt s (zeroPagePointer s (zz.toNat + s.x.toNat))) 2
        s.config.baseCost.indirectIndexedByX)

/-- R120 with R131: the reserved mode where a configuration binds it (decision D8, log 10). -/
def Obligations.LdaIndirectIndexedByYLoadsByte : Prop :=
  ∀ (zz : Byte) (s : State), 256 ≤ s.config.memSize →
    readable s (indexed (zeroPagePointer s zz.toNat) s.y) →
    exec (.ldaIndirectIndexedByY zz) s =
      .next (loaded s (byteAt s (indexed (zeroPagePointer s zz.toNat) s.y)) 2
        (s.config.baseCost.indirectIndexedByY + crossingCycle (zeroPagePointer s zz.toNat) s.y))

/-- R94, after the fetch: an unrecognized byte moves PC past it, reports cost 0, and writes nothing else.
That the counter is not pulsed is the spec's decision D11. -/
def Obligations.UnrecognizedByteAdvancesPcOnly : Prop :=
  ∀ (op : Byte) (s : State), exec (.unrecognized op) s = .next (skipped s)

/-- A data read out of range takes the fault with its effective address, and nothing else of the step
happens. R152 says so of the three Absolute modes; the two indirect modes read at the addresses of R119 and
R120, which the spec takes from general knowledge (decision D8, log 10). Fail-fast is the spec's decision D4,
the state after it D14, with PC the free value of log 3. -/
def Obligations.OutOfRangeDataReadTakesFault : Prop :=
  ∀ s : State, s.config.oorPolicy = .fault →
    (∀ addr : Addr, s.config.memSize ≤ addr.toNat →
      ∃ t, exec (.ldaAbsolute addr) s = .next t ∧ faultTakenAt s addr t) ∧
    (∀ base : Addr, s.config.memSize ≤ (indexed base s.x).toNat →
      ∃ t, exec (.ldaAbsoluteIndexedByX base) s = .next t ∧ faultTakenAt s (indexed base s.x) t) ∧
    (∀ base : Addr, s.config.memSize ≤ (indexed base s.y).toNat →
      ∃ t, exec (.ldaAbsoluteIndexedByY base) s = .next t ∧ faultTakenAt s (indexed base s.y) t) ∧
    (∀ zz : Byte, 256 ≤ s.config.memSize →
      s.config.memSize ≤ (zeroPagePointer s (zz.toNat + s.x.toNat)).toNat →
      ∃ t, exec (.ldaIndirectIndexedByX zz) s = .next t ∧
        faultTakenAt s (zeroPagePointer s (zz.toNat + s.x.toNat)) t) ∧
    (∀ zz : Byte, 256 ≤ s.config.memSize →
      s.config.memSize ≤ (indexed (zeroPagePointer s zz.toNat) s.y).toNat →
      ∃ t, exec (.ldaIndirectIndexedByY zz) s = .next t ∧
        faultTakenAt s (indexed (zeroPagePointer s zz.toNat) s.y) t)

/-- R22, R23, R43, R94, R131, R152: the frame of every instruction. X, Y, the configuration and every byte of
memory stay; A, Z, N and Counter change only when an instruction is executed; the latch only on a fault. -/
def Obligations.InstructionFrame : Prop :=
  ∀ (i : Instr) (s : State), ∃ t, exec i s = .next t ∧
    t.x = s.x ∧ t.y = s.y ∧ t.config = s.config ∧
    (∀ a : Nat, Memory.read t.mem a = Memory.read s.mem a) ∧
    ((∀ c, t.report ≠ some (.executed c)) →
      t.a = s.a ∧ t.z = s.z ∧ t.n = s.n ∧ t.counter = s.counter) ∧
    ((∀ w, t.report ≠ some (.faulted w)) → t.faultLatch = s.faultLatch ∧ t.freeIndex = s.freeIndex)

/-! ## Addressing -/

/-- R118: a page crossing is a carry out of the low byte. -/
def Obligations.PageCrossingIsCarryOutOfLowByte : Prop :=
  ∀ (base : Addr) (index : Byte),
    crossed base (base + zext16 index) = decide (256 ≤ base.toNat % 256 + index.toNat)

/-- R121: the operand value of a literal and of an address, under both policies. -/
def Obligations.OperandValueOfLiteralAndAddress : Prop :=
  ∀ s : State,
    (∀ v : Byte, operandValue s (.literal v) = .ok v) ∧
    (∀ ea : Addr, ea.toNat < s.config.memSize →
      operandValue s (.address ea) = .ok (Memory.read s.mem ea.toNat)) ∧
    (∀ ea : Addr, s.config.memSize ≤ ea.toNat → s.config.oorPolicy = .fault →
      operandValue s (.address ea) = .error ⟨ea⟩) ∧
    (∀ ea : Addr, s.config.memSize ≤ ea.toNat → s.config.oorPolicy = .wrap →
      operandValue s (.address ea) = .ok (Memory.read s.mem (ea.toNat % s.config.memSize)))

/-- R123: resolution moves PC by the operand width of the mode, and an executed step by one more. -/
def Obligations.PcAdvancesByOpcodeAndOperandWidth : Prop :=
  let width : AddressMode → Nat := fun
    | .immediate => 1 | .zeroPage => 1 | .zeroPageIndexedByX => 1
    | .absolute => 2 | .absoluteIndexedByX => 2 | .absoluteIndexedByY => 2
    | .indirectIndexedByX => 1 | .indirectIndexedByY => 1
  (∀ (m : AddressMode) (s t : State) (o : Operand) (extra : Nat), resolve m s = .ok (o, extra, t) →
    t.pc = BitVec.ofNat 16 (s.pc.toNat + width m)) ∧
  (∀ (s t : State) (c : Nat), step s = .next t → t.report = some (.executed c) →
    ∃ e, s.config.dispatch.lookup (byteAt s s.pc) = some e ∧
      t.pc = BitVec.ofNat 16 (s.pc.toNat + (1 + width e.mode)))

/-- R111, R122 and column (d) of R110: the resolver writes nothing but PC, charges at most one extra cycle,
and that only in a mode that can cross a page; only Immediate gives a literal. -/
def Obligations.ResolverWritesOnlyPc : Prop :=
  ∀ (m : AddressMode) (s t : State) (o : Operand) (extra : Nat), resolve m s = .ok (o, extra, t) →
    t = { s with pc := t.pc } ∧ extra ≤ 1 ∧ (chargesCrossing m = false → extra = 0) ∧
    ((∃ v, o = .literal v) ↔ m = .immediate)

/-! ## The step -/

/-- R92 to R98: when the bytes at PC are readable and decode to an instruction, a step of a core that is not
halted is that instruction's meaning at the same state; nothing is added around it. -/
def Obligations.StepRunsDecodedInstruction : Prop :=
  ∀ (s : State) (k : Nat) (i : Instr), s.faultLatch = none →
    (∀ j, j < k → readable s (afterPc s j)) →
    decode s.config.dispatch (bytesFromPc s k) = .ok (i, []) →
    step s = exec i s

/-- R57, R155 with R152: the first byte of an instruction that is out of range faults, at its own address.
The order is the spec's decision D17, the policy D4, the state after D14. -/
def Obligations.StepFaultsAtFirstUnreadableByte : Prop :=
  ∀ s : State, s.faultLatch = none →
    (¬ readable s s.pc → ∃ t, step s = .next t ∧ faultTakenAt s s.pc t) ∧
    (∀ e, readable s s.pc → s.config.dispatch.lookup (byteAt s s.pc) = some e →
      ¬ readable s (afterPc s 1) → ∃ t, step s = .next t ∧ faultTakenAt s (afterPc s 1) t) ∧
    (∀ e, readable s s.pc → s.config.dispatch.lookup (byteAt s s.pc) = some e →
      (e.mode = .absolute ∨ e.mode = .absoluteIndexedByX ∨ e.mode = .absoluteIndexedByY) →
      readable s (afterPc s 1) → ¬ readable s (afterPc s 2) →
      ∃ t, step s = .next t ∧ faultTakenAt s (afterPc s 2) t)

/-- R132 at the step: opcode 0xA9, with both of its exceptions and its cost of BASE_COST(Immediate). The cost
2 is the spec's decision D6 from general knowledge (log 6); the policy and the state after a fault are its
decisions D4 and D14, with PC the free value of log 3 and the draw index the model's own. -/
def Obligations.StepOfLdaImmediate : Prop :=
  ∀ s : State, s.faultLatch = none → s.config.dispatch = referenceDispatch →
    (¬ readable s s.pc → ∃ t, step s = .next t ∧ faultTakenAt s s.pc t) ∧
    (readable s s.pc → byteAt s s.pc = 0xA9 →
      (¬ readable s (afterPc s 1) → ∃ t, step s = .next t ∧ faultTakenAt s (afterPc s 1) t) ∧
      (readable s (afterPc s 1) →
        step s = .next (loaded s (byteAt s (afterPc s 1)) 2 s.config.baseCost.immediate)) ∧
      (readable s (afterPc s 1) → s.config.baseCost = referenceBaseCosts →
        ∃ t, step s = .next t ∧ t.report = some (.executed 2)))

/-- R133 at the step: opcode 0xA5; the data read is always in range, MEM_SIZE being at least 256. The cost 3
is the spec's decision D6 from general knowledge (log 6); the policy and the state after a fault are its
decisions D4 and D14, with PC the free value of log 3 and the draw index the model's own. -/
def Obligations.StepOfLdaZeroPage : Prop :=
  ∀ s : State, s.faultLatch = none → s.config.dispatch = referenceDispatch → 256 ≤ s.config.memSize →
    (¬ readable s s.pc → ∃ t, step s = .next t ∧ faultTakenAt s s.pc t) ∧
    (readable s s.pc → byteAt s s.pc = 0xA5 →
      (¬ readable s (afterPc s 1) → ∃ t, step s = .next t ∧ faultTakenAt s (afterPc s 1) t) ∧
      (readable s (afterPc s 1) →
        step s = .next (loaded s (Memory.read s.mem (byteAt s (afterPc s 1)).toNat) 2
          s.config.baseCost.zeroPage)) ∧
      (readable s (afterPc s 1) → s.config.baseCost = referenceBaseCosts →
        ∃ t, step s = .next t ∧ t.report = some (.executed 3)))

/-- R151: an unrecognized opcode is not fatal, costs nothing, leaves PC one byte further and the byte in
memory, and changes no flag and no register; and the core can go on. -/
def Obligations.UnrecognizedOpcodeIsSkipped : Prop :=
  ∀ s : State, s.faultLatch = none → readable s s.pc →
    s.config.dispatch.lookup (byteAt s s.pc) = none →
    step s = .next (skipped s) ∧ (skipped s).report.map Report.cost = some 0 ∧
      (skipped s).faultLatch = none ∧
      (∀ c, 1 ≤ c → (skipped s).report ≠ some (.executed c)) ∧
      byteAt (skipped s) ((skipped s).pc - 1) = byteAt s s.pc

/-- R91, R157: a halted core has no step, and no host operation but a new construction opens its latch
(the spec's decision D14; the host's `fault` outcome stands for "no step", log 7). -/
def Obligations.OnlyConstructionOpensTheLatch : Prop :=
  ∀ (s : State) (w : OutOfRange), s.faultLatch = some w →
    step s = .fault (.halted w) ∧
    ∀ (op : HostOp) (t : State), hostOp op s = .next t →
      t.faultLatch = some w ∨ ∃ c d, op = .construct c d ∧ t = State.construct c d

/-- R91, R97, R150, R153: a core that is not halted always answers, with exactly one of the three outcomes;
an executed step pulses its whole reported cost once, the other two leave the counter alone. The outcome
codes and the single pulse are the spec's decisions D15 and D11. -/
def Obligations.StepHasOneOfThreeOutcomes : Prop :=
  ∀ s : State, s.config.legal = true → s.faultLatch = none → ∃ t, step s = .next t ∧
    ((∃ e extra, s.config.dispatch.lookup (byteAt s s.pc) = some e ∧ extra ≤ 1 ∧
        (chargesCrossing e.mode = false → extra = 0) ∧
        t.report = some (.executed (s.config.baseCost.cost e.mode + extra)) ∧
        1 ≤ s.config.baseCost.cost e.mode + extra ∧
        t.counter = counterPlus s (s.config.baseCost.cost e.mode + extra) ∧ t.faultLatch = none) ∨
      (s.config.dispatch.lookup (byteAt s s.pc) = none ∧
        t.report = some .unrecognized ∧ t.counter = s.counter ∧ t.faultLatch = none) ∨
      (∃ w, t.report = some (.faulted w) ∧ t.counter = s.counter ∧ t.faultLatch = some w))

/-- R152, R156: a step that sets the latch does so only under OOR_POLICY = Fault, with an address outside
memory, and keeps A, X, Y, Z, N, Mem and Counter; PC is free (decisions D4 and D14, log 3). -/
def Obligations.FaultedStepKeepsItsRegisters : Prop :=
  ∀ (s t : State) (w : OutOfRange), s.faultLatch = none → step s = .next t → t.faultLatch = some w →
    s.config.oorPolicy = .fault ∧ s.config.memSize ≤ w.addr.toNat ∧ faultTakenAt s w.addr t

/-- R152: no access faults under OOR_POLICY = Wrap, nor when MEM_SIZE = 65536, however long the run. -/
def Obligations.NoFaultWhenEveryAddressIsBacked : Prop :=
  ∀ (k : Nat) (s : State), s.faultLatch = none →
    (s.config.oorPolicy = .wrap ∨ s.config.memSize = 65536) → runsSafely k s = true

/-- R98: the step is, in every state, the step the spec writes as pseudocode. After a raise both sides draw
the same free PC (log 3); Resolve of the two indirect modes is the spec's decision D8 (log 10). -/
def Obligations.StepIsThePseudocodeStep : Prop :=
  ∀ s : State, step s = stepPseudocode s

/-- R22, R23, R20, R43, R55: no run writes X, Y, the configuration or memory. -/
def Obligations.RunNeverWritesMemoryOrIndexRegisters : Prop :=
  ∀ (k : Nat) (s t : State), runSteps k s = .next t →
    t.x = s.x ∧ t.y = s.y ∧ t.config = s.config ∧
    (∀ a : Nat, Memory.read t.mem a = Memory.read s.mem a)

/-- R29: the flags are those of A once they have been, every executed step makes them so, and a step that is
not executed leaves Z and N as they were. -/
def Obligations.FlagsReflectLastLoad : Prop :=
  ∀ s t : State, step s = .next t →
    (s.flagsReflectA = true → t.flagsReflectA = true) ∧
    (∀ c, t.report = some (.executed c) → t.flagsReflectA = true) ∧
    ((∀ c, t.report ≠ some (.executed c)) → t.z = s.z ∧ t.n = s.n)

/-- R28: nothing writes Z or N but an executed instruction, through SetZN of A; no host operation does (a
construction makes a new machine). -/
def Obligations.FlagsAreWrittenOnlyThroughSetZn : Prop :=
  ∀ (op : HostOp) (s t : State), hostOp op s = .next t →
    (t.z = s.z ∧ t.n = s.n) ∨
    (∃ c, op = .step ∧ t.report = some (.executed c) ∧ t.z = decide (t.a.toNat = 0) ∧
      t.n = negativeValue t.config.negativeBit t.a) ∨
    (∃ c d, op = .construct c d)

/-- Every step keeps the invariant: legal parameters, canonical memory inside MEM_SIZE, the counter inside
its width, latch and report in agreement (R7, R32, R34, R35, R91; logs 2, 4, 7). -/
def Obligations.StepKeepsTheInvariant : Prop :=
  ∀ s t : State, s.inv = true → step s = .next t → t.inv = true

/-- The invariant holds at State.reset. -/
def Obligations.ResetMeetsTheInvariant : Prop :=
  State.reset.inv = true

/-- Every host operation keeps the invariant, and construction establishes it from any state. -/
def Obligations.HostOperationsKeepTheInvariant : Prop :=
  (∀ (op : HostOp) (s t : State), s.inv = true → hostOp op s = .next t → t.inv = true) ∧
  (∀ (c : Config) (d : Draws) (s t : State), hostOp (.construct c d) s = .next t → t.inv = true)

/-- R177: what a run does to every register, flag, byte, PC and the latch does not depend on BASE_COST, on
the counter, or on what was reported before. The spec leaves PC unspecified after a fault (R98, R156, decision
D14): that the two runs then agree on PC is the model's choice, equal draw indices drawing one free value
(log 3). -/
def Obligations.ResultsDoNotDependOnTiming : Prop :=
  ∀ (k : Nat) (s s' : State), sameButTiming s s' →
    (∀ t, runSteps k s = .next t →
      ∃ t', runSteps k s' = .next t' ∧ sameButTiming t t') ∧
    (∀ r, runSteps k s = .fault r → runSteps k s' = .fault r)

/-- R88: after a run without pulses of the host's own, the counter is what it was plus the sum of the costs
the steps returned, wrapped or saturated at its width; after a reset it was 0. -/
def Obligations.CounterIsSumOfReturnedCosts : Prop :=
  ∀ (k : Nat) (s t : State), s.counter < 2 ^ s.config.cycleWidth → runSteps k s = .next t →
    (s.config.cycleOverflow = .wrap →
      t.counter = (s.counter + costOfRun k s) % 2 ^ s.config.cycleWidth) ∧
    (s.config.cycleOverflow = .saturate →
      t.counter = min (s.counter + costOfRun k s) (2 ^ s.config.cycleWidth - 1))

/-! ## The host interface and cycle accounting -/

/-- R37, R170, R171: what a construction leaves, from any earlier state: PC, Fault and Counter as given,
everything the spec leaves unspecified at the draw, whatever the draw (decision D12). -/
def Obligations.ConstructionGivesTheStatedValues : Prop :=
  ∀ (c : Config) (d : Draws) (s : State),
    (c.legal = true → ∃ t, hostOp (.construct c d) s = .next t ∧
      t.config = c ∧ t.pc = c.initPc ∧ t.faultLatch = none ∧ t.counter = 0 ∧ t.report = none ∧
      t.a = d.a ∧ t.x = d.x ∧ t.y = d.y ∧ t.z = d.z ∧ t.n = d.n ∧
      (∀ (k : Nat) (v : Byte), k < c.memSize → d.mem[k]? = some v → Memory.read t.mem k = v)) ∧
    (c.legal = false → hostOp (.construct c d) s = .refused .illegalConfiguration)

/-- R170 to R172 and R7: State.reset is the construction with the reference configuration, every unspecified
value drawn zero (the model's choice, logs 1 and 2), so PC is 0x0000 and Counter 0. -/
def Obligations.ResetIsTheReferenceConstruction : Prop :=
  State.reset = State.construct Config.reference ⟨0, 0, 0, false, false, []⟩ ∧
  State.reset.pc = 0x0000 ∧ State.reset.counter = 0 ∧ State.reset.faultLatch = none ∧
  Config.reference.legal = true

/-- R43, R102: before the first step a load in range writes its bytes and nothing else, and one that leaves
memory is refused (decision D13). The canonical form of memory is the model's (log 2). -/
def Obligations.LoadWritesItsBytes : Prop :=
  ∀ (s : State) (addr : Nat) (bytes : List Byte), s.report = none → Memory.wf s.mem = true →
    (addr + bytes.length ≤ s.config.memSize →
      ∃ t, hostOp (.load addr bytes) s = .next t ∧ t = { s with mem := t.mem } ∧
        (∀ k, k < bytes.length → bytes[k]? = some (Memory.read t.mem (addr + k))) ∧
        (∀ a, a < addr ∨ addr + bytes.length ≤ a → Memory.read t.mem a = Memory.read s.mem a)) ∧
    (bytes ≠ [] → s.config.memSize < addr + bytes.length →
      hostOp (.load addr bytes) s = .refused .loadOutsideMemory)

/-- R103: the host writes PC, A, X, Y and memory before the first step only, and every step closes that
door (decision D13; the model reads "first step" off the report, logs 4 and 13). -/
def Obligations.HostWritesOnlyBeforeTheFirstStep : Prop :=
  (∀ (s : State) (p : Addr) (v : Byte), s.report = none →
    hostOp (.setPC p) s = .next { s with pc := p } ∧ hostOp (.setA v) s = .next { s with a := v } ∧
    hostOp (.setX v) s = .next { s with x := v } ∧ hostOp (.setY v) s = .next { s with y := v }) ∧
  (∀ (s t : State), step s = .next t → ∀ (p : Addr) (v : Byte) (addr : Nat) (bytes : List Byte),
    hostOp (.setPC p) t = .refused .afterFirstStep ∧ hostOp (.setA v) t = .refused .afterFirstStep ∧
    hostOp (.setX v) t = .refused .afterFirstStep ∧ hostOp (.setY v) t = .refused .afterFirstStep ∧
    hostOp (.load addr bytes) t = .refused .afterFirstStep)

/-- R82, R83, R84: a legal pulse adds its operand under the overflow policy and writes only Counter, and any
other is refused (decisions D9 and D10). -/
def Obligations.PulseAddsUnderTheOverflowPolicy : Prop :=
  ∀ (s : State) (n : Nat),
    (n < 2 ^ s.config.cycleWidth →
      hostOp (.counterPulse n) s = .next { s with counter := counterPlus s n }) ∧
    (2 ^ s.config.cycleWidth ≤ n → hostOp (.counterPulse n) s = .refused .pulseOperand) ∧
    (∀ m : Int, m < 0 → hostOp (.counterPulse m) s = .refused .pulseOperand)

/-- R87: reset then pulse(n) gives n, whatever the history, under both policies. -/
def Obligations.ResetThenPulseGivesItsOperand : Prop :=
  ∀ (s : State) (n : Nat), n < 2 ^ s.config.cycleWidth →
    ∃ t u, hostOp .counterReset s = .next t ∧ hostOp (.counterPulse n) t = .next u ∧
      u = { s with counter := n }

/-- R85: the counter changes only by the host's reset and pulse and by the one pulse of an executed step (a
construction makes a new machine). -/
def Obligations.CounterChangesOnlyByResetAndPulse : Prop :=
  ∀ (op : HostOp) (s t : State), hostOp op s = .next t →
    t.counter = s.counter ∨ (op = .counterReset ∧ t.counter = 0) ∨
    (∃ n : Nat, op = .counterPulse n ∧ t.counter = counterPlus s n) ∨
    (∃ c, op = .step ∧ t.report = some (.executed c) ∧ t.counter = counterPlus s c) ∨
    (∃ c d, op = .construct c d)

/-- R92, R102: a word placed where the step fetches is the instruction the step runs (log 9). -/
def Obligations.PlacedWordIsRun : Prop :=
  ∀ (s : State) (nbits w : Nat) (i : Instr), s.config.dispatch = referenceDispatch →
    Memory.wf s.mem = true → s.pc.toNat + 2 < s.config.memSize → s.config.memSize ≤ 65536 →
    decodeTableWord nbits w = some i →
    step (s.withFetchWord nbits w) = exec i (s.withFetchWord nbits w)
end

