-- ==== Sys2Proof/Laws/Memory.lean ====
section
/-! SUPPORT. The laws of memory: a write is read back, leaves every other address alone, and keeps the canonical
form and the bound. -/

namespace Sys2Proof.Machine

@[simp] theorem Memory.read_nil (a : Nat) : Memory.read [] a = Memory.unlisted := rfl

theorem Memory.read_cons (k : Nat) (v : Byte) (rest : Memory) (a : Nat) :
    Memory.read ((k, v) :: rest) a = if a = k then v else Memory.read rest a := rfl

theorem Memory.risingFrom_cons (lo k : Nat) (v : Byte) (rest : Memory) :
    Memory.risingFrom lo ((k, v) :: rest) = true ↔
      lo ≤ k ∧ v ≠ Memory.unlisted ∧ Memory.risingFrom (k + 1) rest = true := by
  simp [Memory.risingFrom, and_assoc]

theorem Memory.risingFrom_mono {m : Memory} {lo lo' : Nat} (h : lo' ≤ lo)
    (hm : Memory.risingFrom lo m = true) : Memory.risingFrom lo' m = true := by
  cases m with
  | nil => rfl
  | cons c rest =>
    rw [Memory.risingFrom_cons] at hm ⊢
    exact ⟨by omega, hm.2⟩

theorem Memory.read_below {m : Memory} {lo a : Nat} (hm : Memory.risingFrom lo m = true)
    (h : a < lo) : Memory.read m a = Memory.unlisted := by
  induction m generalizing lo with
  | nil => rfl
  | cons c rest ih =>
    rw [Memory.risingFrom_cons] at hm
    rw [Memory.read_cons, if_neg (by omega)]
    exact ih hm.2.2 (by omega)

theorem Memory.read_put_same {rest : Memory} {a : Nat} (v : Byte)
    (h : Memory.risingFrom (a + 1) rest = true) : Memory.read (Memory.put a v rest) a = v := by
  unfold Memory.put
  split
  · rename_i hv; rw [hv]; exact Memory.read_below h (Nat.lt_succ_self a)
  · rw [Memory.read_cons, if_pos rfl]

theorem Memory.read_put_other {a b : Nat} (v : Byte) (rest : Memory) (h : b ≠ a) :
    Memory.read (Memory.put a v rest) b = Memory.read rest b := by
  unfold Memory.put
  split
  · rfl
  · rw [Memory.read_cons, if_neg h]

theorem Memory.put_rising {rest : Memory} {lo a : Nat} (v : Byte) (hlo : lo ≤ a)
    (h : Memory.risingFrom (a + 1) rest = true) :
    Memory.risingFrom lo (Memory.put a v rest) = true := by
  unfold Memory.put
  split
  · exact Memory.risingFrom_mono (by omega) h
  · rw [Memory.risingFrom_cons]; exact ⟨hlo, ‹_›, h⟩

theorem Memory.write_rising {m : Memory} {lo a : Nat} (v : Byte) (hlo : lo ≤ a)
    (hm : Memory.risingFrom lo m = true) : Memory.risingFrom lo (Memory.write m a v) = true := by
  induction m generalizing lo with
  | nil => exact Memory.put_rising v hlo rfl
  | cons c rest ih =>
    obtain ⟨k, w⟩ := c
    have hc := (Memory.risingFrom_cons lo k w rest).1 hm
    unfold Memory.write
    split
    · exact Memory.put_rising v hlo ((Memory.risingFrom_cons _ k w rest).2 ⟨by omega, hc.2⟩)
    · split
      · rename_i hk; exact Memory.put_rising v hlo (hk ▸ hc.2.2)
      · exact (Memory.risingFrom_cons lo k w _).2 ⟨hc.1, hc.2.1, ih (by omega) hc.2.2⟩

/-- A write keeps the canonical form. -/
theorem Memory.write_wf {m : Memory} (a : Nat) (v : Byte) (h : Memory.wf m = true) :
    Memory.wf (Memory.write m a v) = true :=
  Memory.write_rising v (Nat.zero_le a) h

theorem Memory.read_write_same_rising {m : Memory} {lo : Nat} (a : Nat) (v : Byte)
    (hm : Memory.risingFrom lo m = true) : Memory.read (Memory.write m a v) a = v := by
  induction m generalizing lo with
  | nil => exact Memory.read_put_same v rfl
  | cons c rest ih =>
    obtain ⟨k, w⟩ := c
    have hc := (Memory.risingFrom_cons lo k w rest).1 hm
    unfold Memory.write
    split
    · exact Memory.read_put_same v ((Memory.risingFrom_cons _ k w rest).2 ⟨by omega, hc.2⟩)
    · split
      · rename_i hk; exact Memory.read_put_same v (hk ▸ hc.2.2)
      · rw [Memory.read_cons, if_neg ‹_›]; exact ih hc.2.2

/-- A written byte is read back. -/
theorem Memory.read_write_same {m : Memory} (a : Nat) (v : Byte) (h : Memory.wf m = true) :
    Memory.read (Memory.write m a v) a = v :=
  Memory.read_write_same_rising a v h

/-- A write leaves every other address alone, canonical or not. -/
theorem Memory.read_write_other (m : Memory) {a b : Nat} (v : Byte) (h : b ≠ a) :
    Memory.read (Memory.write m a v) b = Memory.read m b := by
  induction m with
  | nil => exact Memory.read_put_other v [] h
  | cons c rest ih =>
    obtain ⟨k, w⟩ := c
    unfold Memory.write
    split
    · exact Memory.read_put_other v _ h
    · split
      · rename_i hk; rw [Memory.read_put_other v _ h, Memory.read_cons, if_neg (hk ▸ h)]
      · rw [Memory.read_cons, Memory.read_cons, ih]

theorem Memory.put_below {size a : Nat} {rest : Memory} (v : Byte) (ha : a < size)
    (h : Memory.below size rest = true) : Memory.below size (Memory.put a v rest) = true := by
  unfold Memory.put
  split
  · exact h
  · simpa [Memory.below, ha] using h

/-- A write inside the bound keeps the bound. -/
theorem Memory.write_below {size a : Nat} {m : Memory} (v : Byte) (ha : a < size)
    (h : Memory.below size m = true) : Memory.below size (Memory.write m a v) = true := by
  induction m with
  | nil => exact Memory.put_below v ha h
  | cons c rest ih =>
    obtain ⟨k, w⟩ := c
    have hc : k < size ∧ Memory.below size rest = true := by simpa [Memory.below] using h
    unfold Memory.write
    split
    · exact Memory.put_below v ha h
    · split
      · exact Memory.put_below v ha hc.2
      · simpa [Memory.below, hc.1] using ih hc.2

/-- A run of writes keeps the canonical form. -/
theorem Memory.writeBytes_wf (bytes : List Byte) {m : Memory} (a : Nat) (h : Memory.wf m = true) :
    Memory.wf (Memory.writeBytes m a bytes) = true := by
  induction bytes generalizing m a with
  | nil => exact h
  | cons v rest ih => exact ih (a + 1) (Memory.write_wf a v h)

/-- A run of writes inside the bound keeps the bound. -/
theorem Memory.writeBytes_below {size : Nat} (bytes : List Byte) {m : Memory} (a : Nat)
    (ha : a + bytes.length ≤ size) (h : Memory.below size m = true) :
    Memory.below size (Memory.writeBytes m a bytes) = true := by
  induction bytes generalizing m a with
  | nil => exact h
  | cons v rest ih =>
    rw [List.length_cons] at ha
    exact ih (a + 1) (by omega) (Memory.write_below v (by omega) h)

/-- A run of writes leaves every address outside it alone. -/
theorem Memory.read_writeBytes_outside (bytes : List Byte) (m : Memory) (a : Nat) {b : Nat}
    (h : b < a ∨ a + bytes.length ≤ b) :
    Memory.read (Memory.writeBytes m a bytes) b = Memory.read m b := by
  induction bytes generalizing m a with
  | nil => rfl
  | cons v rest ih =>
    rw [List.length_cons] at h
    rw [Memory.writeBytes, ih _ _ (by omega), Memory.read_write_other m v (by omega)]

/-- A run of writes is read back. -/
theorem Memory.read_writeBytes_inside (bytes : List Byte) {m : Memory} (a : Nat) {k : Nat}
    (hm : Memory.wf m = true) (h : k < bytes.length) :
    bytes[k]? = some (Memory.read (Memory.writeBytes m a bytes) (a + k)) := by
  induction bytes generalizing m a k with
  | nil => cases h
  | cons v rest ih =>
    cases k with
    | zero =>
      rw [Memory.writeBytes, Memory.read_writeBytes_outside rest _ _ (by omega)]
      exact congrArg some (Memory.read_write_same a v hm).symm
    | succ k =>
      have := ih (a + 1) (Memory.write_wf a v hm) (Nat.lt_of_succ_lt_succ h)
      rw [List.getElem?_cons_succ, this, Memory.writeBytes, Nat.add_right_comm, Nat.add_assoc]

/-- The memory of State.reset is canonical. -/
theorem reset_memory_wf : Memory.wf State.reset.mem = true := rfl

end Sys2Proof.Machine
end

