-- ==== Sys2Proof/Laws/State.lean ====
section
/-! SUPPORT. One lemma per field per update of State, true by rfl, so that no proof unfolds a record update. -/

namespace Sys2Proof.Machine

@[simp] theorem pulse_config (k : Nat) (s : State) : (pulse k s).config = s.config := rfl
@[simp] theorem pulse_a (k : Nat) (s : State) : (pulse k s).a = s.a := rfl
@[simp] theorem pulse_x (k : Nat) (s : State) : (pulse k s).x = s.x := rfl
@[simp] theorem pulse_y (k : Nat) (s : State) : (pulse k s).y = s.y := rfl
@[simp] theorem pulse_pc (k : Nat) (s : State) : (pulse k s).pc = s.pc := rfl
@[simp] theorem pulse_z (k : Nat) (s : State) : (pulse k s).z = s.z := rfl
@[simp] theorem pulse_n (k : Nat) (s : State) : (pulse k s).n = s.n := rfl
@[simp] theorem pulse_mem (k : Nat) (s : State) : (pulse k s).mem = s.mem := rfl
@[simp] theorem pulse_faultLatch (k : Nat) (s : State) : (pulse k s).faultLatch = s.faultLatch := rfl
@[simp] theorem pulse_counter (k : Nat) (s : State) : (pulse k s).counter = counterAfterPulse s.config s.counter k := rfl
@[simp] theorem pulse_report (k : Nat) (s : State) : (pulse k s).report = s.report := rfl
@[simp] theorem pulse_freeIndex (k : Nat) (s : State) : (pulse k s).freeIndex = s.freeIndex := rfl

@[simp] theorem counterReset_config (s : State) : (counterReset s).config = s.config := rfl
@[simp] theorem counterReset_a (s : State) : (counterReset s).a = s.a := rfl
@[simp] theorem counterReset_x (s : State) : (counterReset s).x = s.x := rfl
@[simp] theorem counterReset_y (s : State) : (counterReset s).y = s.y := rfl
@[simp] theorem counterReset_pc (s : State) : (counterReset s).pc = s.pc := rfl
@[simp] theorem counterReset_z (s : State) : (counterReset s).z = s.z := rfl
@[simp] theorem counterReset_n (s : State) : (counterReset s).n = s.n := rfl
@[simp] theorem counterReset_mem (s : State) : (counterReset s).mem = s.mem := rfl
@[simp] theorem counterReset_faultLatch (s : State) : (counterReset s).faultLatch = s.faultLatch := rfl
@[simp] theorem counterReset_counter (s : State) : (counterReset s).counter = 0 := rfl
@[simp] theorem counterReset_report (s : State) : (counterReset s).report = s.report := rfl
@[simp] theorem counterReset_freeIndex (s : State) : (counterReset s).freeIndex = s.freeIndex := rfl

@[simp] theorem advancePc_config (k : Nat) (s : State) : (advancePc k s).config = s.config := rfl
@[simp] theorem advancePc_a (k : Nat) (s : State) : (advancePc k s).a = s.a := rfl
@[simp] theorem advancePc_x (k : Nat) (s : State) : (advancePc k s).x = s.x := rfl
@[simp] theorem advancePc_y (k : Nat) (s : State) : (advancePc k s).y = s.y := rfl
@[simp] theorem advancePc_pc (k : Nat) (s : State) : (advancePc k s).pc = s.pc + BitVec.ofNat 16 k := rfl
@[simp] theorem advancePc_z (k : Nat) (s : State) : (advancePc k s).z = s.z := rfl
@[simp] theorem advancePc_n (k : Nat) (s : State) : (advancePc k s).n = s.n := rfl
@[simp] theorem advancePc_mem (k : Nat) (s : State) : (advancePc k s).mem = s.mem := rfl
@[simp] theorem advancePc_faultLatch (k : Nat) (s : State) : (advancePc k s).faultLatch = s.faultLatch := rfl
@[simp] theorem advancePc_counter (k : Nat) (s : State) : (advancePc k s).counter = s.counter := rfl
@[simp] theorem advancePc_report (k : Nat) (s : State) : (advancePc k s).report = s.report := rfl
@[simp] theorem advancePc_freeIndex (k : Nat) (s : State) : (advancePc k s).freeIndex = s.freeIndex := rfl

@[simp] theorem reportExecuted_config (c : Nat) (s : State) : (reportExecuted c s).config = s.config := rfl
@[simp] theorem reportExecuted_a (c : Nat) (s : State) : (reportExecuted c s).a = s.a := rfl
@[simp] theorem reportExecuted_x (c : Nat) (s : State) : (reportExecuted c s).x = s.x := rfl
@[simp] theorem reportExecuted_y (c : Nat) (s : State) : (reportExecuted c s).y = s.y := rfl
@[simp] theorem reportExecuted_pc (c : Nat) (s : State) : (reportExecuted c s).pc = s.pc := rfl
@[simp] theorem reportExecuted_z (c : Nat) (s : State) : (reportExecuted c s).z = s.z := rfl
@[simp] theorem reportExecuted_n (c : Nat) (s : State) : (reportExecuted c s).n = s.n := rfl
@[simp] theorem reportExecuted_mem (c : Nat) (s : State) : (reportExecuted c s).mem = s.mem := rfl
@[simp] theorem reportExecuted_faultLatch (c : Nat) (s : State) : (reportExecuted c s).faultLatch = s.faultLatch := rfl
@[simp] theorem reportExecuted_counter (c : Nat) (s : State) : (reportExecuted c s).counter = counterAfterPulse s.config s.counter c := rfl
@[simp] theorem reportExecuted_report (c : Nat) (s : State) : (reportExecuted c s).report = some (.executed c) := rfl
@[simp] theorem reportExecuted_freeIndex (c : Nat) (s : State) : (reportExecuted c s).freeIndex = s.freeIndex := rfl

@[simp] theorem takeFault_config (w : OutOfRange) (s : State) : (takeFault w s).config = s.config := rfl
@[simp] theorem takeFault_a (w : OutOfRange) (s : State) : (takeFault w s).a = s.a := rfl
@[simp] theorem takeFault_x (w : OutOfRange) (s : State) : (takeFault w s).x = s.x := rfl
@[simp] theorem takeFault_y (w : OutOfRange) (s : State) : (takeFault w s).y = s.y := rfl
@[simp] theorem takeFault_pc (w : OutOfRange) (s : State) : (takeFault w s).pc = Config.freePc s.freeIndex := rfl
@[simp] theorem takeFault_z (w : OutOfRange) (s : State) : (takeFault w s).z = s.z := rfl
@[simp] theorem takeFault_n (w : OutOfRange) (s : State) : (takeFault w s).n = s.n := rfl
@[simp] theorem takeFault_mem (w : OutOfRange) (s : State) : (takeFault w s).mem = s.mem := rfl
@[simp] theorem takeFault_faultLatch (w : OutOfRange) (s : State) : (takeFault w s).faultLatch = some w := rfl
@[simp] theorem takeFault_counter (w : OutOfRange) (s : State) : (takeFault w s).counter = s.counter := rfl
@[simp] theorem takeFault_report (w : OutOfRange) (s : State) : (takeFault w s).report = some (.faulted w) := rfl
@[simp] theorem takeFault_freeIndex (w : OutOfRange) (s : State) : (takeFault w s).freeIndex = s.freeIndex + 1 := rfl

@[simp] theorem setZN_config (r : Byte) (s : State) : (setZN r s).config = s.config := rfl
@[simp] theorem setZN_a (r : Byte) (s : State) : (setZN r s).a = s.a := rfl
@[simp] theorem setZN_x (r : Byte) (s : State) : (setZN r s).x = s.x := rfl
@[simp] theorem setZN_y (r : Byte) (s : State) : (setZN r s).y = s.y := rfl
@[simp] theorem setZN_pc (r : Byte) (s : State) : (setZN r s).pc = s.pc := rfl
@[simp] theorem setZN_z (r : Byte) (s : State) : (setZN r s).z = zeroOf r := rfl
@[simp] theorem setZN_n (r : Byte) (s : State) : (setZN r s).n = negativeOf s.config.negativeBit r := rfl
@[simp] theorem setZN_mem (r : Byte) (s : State) : (setZN r s).mem = s.mem := rfl
@[simp] theorem setZN_faultLatch (r : Byte) (s : State) : (setZN r s).faultLatch = s.faultLatch := rfl
@[simp] theorem setZN_counter (r : Byte) (s : State) : (setZN r s).counter = s.counter := rfl
@[simp] theorem setZN_report (r : Byte) (s : State) : (setZN r s).report = s.report := rfl
@[simp] theorem setZN_freeIndex (r : Byte) (s : State) : (setZN r s).freeIndex = s.freeIndex := rfl

@[simp] theorem executeLda_config (v : Byte) (s : State) : (executeLda v s).config = s.config := rfl
@[simp] theorem executeLda_a (v : Byte) (s : State) : (executeLda v s).a = v := rfl
@[simp] theorem executeLda_x (v : Byte) (s : State) : (executeLda v s).x = s.x := rfl
@[simp] theorem executeLda_y (v : Byte) (s : State) : (executeLda v s).y = s.y := rfl
@[simp] theorem executeLda_pc (v : Byte) (s : State) : (executeLda v s).pc = s.pc := rfl
@[simp] theorem executeLda_z (v : Byte) (s : State) : (executeLda v s).z = zeroOf v := rfl
@[simp] theorem executeLda_n (v : Byte) (s : State) : (executeLda v s).n = negativeOf s.config.negativeBit v := rfl
@[simp] theorem executeLda_mem (v : Byte) (s : State) : (executeLda v s).mem = s.mem := rfl
@[simp] theorem executeLda_faultLatch (v : Byte) (s : State) : (executeLda v s).faultLatch = s.faultLatch := rfl
@[simp] theorem executeLda_counter (v : Byte) (s : State) : (executeLda v s).counter = s.counter := rfl
@[simp] theorem executeLda_report (v : Byte) (s : State) : (executeLda v s).report = s.report := rfl
@[simp] theorem executeLda_freeIndex (v : Byte) (s : State) : (executeLda v s).freeIndex = s.freeIndex := rfl

@[simp] theorem finishLda_config (m : AddressMode) (v : Byte) (k : Nat) (s : State) : (finishLda m v k s).config = s.config := rfl
@[simp] theorem finishLda_a (m : AddressMode) (v : Byte) (k : Nat) (s : State) : (finishLda m v k s).a = v := rfl
@[simp] theorem finishLda_x (m : AddressMode) (v : Byte) (k : Nat) (s : State) : (finishLda m v k s).x = s.x := rfl
@[simp] theorem finishLda_y (m : AddressMode) (v : Byte) (k : Nat) (s : State) : (finishLda m v k s).y = s.y := rfl
@[simp] theorem finishLda_pc (m : AddressMode) (v : Byte) (k : Nat) (s : State) : (finishLda m v k s).pc = s.pc + BitVec.ofNat 16 (1 + m.operandBytes) := rfl
@[simp] theorem finishLda_z (m : AddressMode) (v : Byte) (k : Nat) (s : State) : (finishLda m v k s).z = zeroOf v := rfl
@[simp] theorem finishLda_n (m : AddressMode) (v : Byte) (k : Nat) (s : State) : (finishLda m v k s).n = negativeOf s.config.negativeBit v := rfl
@[simp] theorem finishLda_mem (m : AddressMode) (v : Byte) (k : Nat) (s : State) : (finishLda m v k s).mem = s.mem := rfl
@[simp] theorem finishLda_faultLatch (m : AddressMode) (v : Byte) (k : Nat) (s : State) : (finishLda m v k s).faultLatch = s.faultLatch := rfl
@[simp] theorem finishLda_counter (m : AddressMode) (v : Byte) (k : Nat) (s : State) : (finishLda m v k s).counter = counterAfterPulse s.config s.counter (s.config.baseCost.cost m + k) := rfl
@[simp] theorem finishLda_report (m : AddressMode) (v : Byte) (k : Nat) (s : State) : (finishLda m v k s).report = some (.executed (s.config.baseCost.cost m + k)) := rfl
@[simp] theorem finishLda_freeIndex (m : AddressMode) (v : Byte) (k : Nat) (s : State) : (finishLda m v k s).freeIndex = s.freeIndex := rfl

end Sys2Proof.Machine
end

