-- ==== Sys2Proof/Laws/Access.lean ====
section
/-! SUPPORT. What an access, the counter operations and the fault can do. -/

namespace Sys2Proof.Machine

/-- An access is answered exactly when its address is in memory or the policy is Wrap, and then at the
address modulo MEM_SIZE (R42). -/
theorem memRead_ok_iff (s : State) (a : Addr) (v : Byte) :
    memRead s a = .ok v ↔
      (a.toNat < s.config.memSize ∨ s.config.oorPolicy = .wrap) ∧
        v = Memory.read s.mem (a.toNat % s.config.memSize) := by
  unfold memRead memIndex
  by_cases h : a.toNat < s.config.memSize
  · simp [h, Nat.mod_eq_of_lt h, eq_comm]
  · cases hp : s.config.oorPolicy <;> simp [h, eq_comm]

/-- An access raises exactly when its address is outside memory under OOR_POLICY = Fault, and it raises
that address (R42, R152). -/
theorem memRead_error_iff (s : State) (a : Addr) (w : OutOfRange) :
    memRead s a = .error w ↔
      w = ⟨a⟩ ∧ s.config.memSize ≤ a.toNat ∧ s.config.oorPolicy = .fault := by
  unfold memRead memIndex
  by_cases h : a.toNat < s.config.memSize
  · simp [h]
  · cases hp : s.config.oorPolicy <;> simp [h, eq_comm, Nat.le_of_not_lt h]

/-- The condition an access raises names that access. -/
theorem memRead_error_self {s : State} {a : Addr} {w : OutOfRange} (h : memRead s a = .error w) :
    memRead s w.addr = .error w := by
  obtain ⟨rfl, -⟩ := (memRead_error_iff s a w).1 h
  exact h

/-- An access depends on the configuration and memory only. -/
theorem memRead_congr {s t : State} (hs : t.config.memSize = s.config.memSize)
    (hp : t.config.oorPolicy = s.config.oorPolicy) (hm : t.mem = s.mem) (a : Addr) :
    memRead t a = memRead s a := by
  simp only [memRead, memIndex, hs, hp, hm]

/-- The counter stays inside its width (R32, R84). -/
theorem counterAfterPulse_lt (c : Config) (k n : Nat) : counterAfterPulse c k n < 2 ^ c.cycleWidth := by
  have := Nat.two_pow_pos c.cycleWidth
  unfold counterAfterPulse
  split
  · exact Nat.mod_lt _ this
  · omega

/-- Bit N_BIT of a byte, by its value (R130). -/
theorem negativeOf_bit7 (r : Byte) : negativeOf .bit7 r = decide (128 ≤ r.toNat) := by
  revert r; decide

/-- Bit 6 of a byte, by its value (R130). -/
theorem negativeOf_bit6 (r : Byte) : negativeOf .bit6 r = decide (64 ≤ r.toNat % 128) := by
  revert r; decide

/-- A byte is zero when its value is. -/
theorem zeroOf_eq (r : Byte) : zeroOf r = decide (r.toNat = 0) := by
  revert r; decide

/-- An address is its low byte and its high byte (R10, R45). -/
theorem addrOfBytes_lowByte_highByte (a : Addr) : addrOfBytes (lowByte a) (highByte a) = a := by
  ext i hi
  rw [addrOfBytes, BitVec.getElem_append]
  by_cases h : i < 8
  · simp [lowByte, h, BitVec.getLsbD_eq_getElem hi]
  · simp [highByte, h, Nat.add_sub_cancel' (Nat.le_of_not_lt h), BitVec.getLsbD_eq_getElem hi]

/-- The value of an assembled address (R45). -/
theorem addrOfBytes_toNat (lo hi : Byte) : (addrOfBytes lo hi).toNat = lo.toNat + 256 * hi.toNat := by
  have h := lo.isLt
  rw [addrOfBytes, BitVec.toNat_append, Nat.shiftLeft_eq, ← Nat.shiftLeft_eq,
    ← Nat.shiftLeft_add_eq_or_of_lt h, Nat.shiftLeft_eq]
  omega

/-- The value of the high byte (R10). -/
theorem highByte_toNat (a : Addr) : (highByte a).toNat = a.toNat / 256 := by
  have := a.isLt
  simp [highByte, Nat.shiftRight_eq_div_pow]
  omega

/-- The value of a zero-extended byte (R10). -/
theorem zext16_toNat (b : Byte) : (zext16 b).toNat = b.toNat := by
  have := b.isLt
  simp [zext16]; omega

end Sys2Proof.Machine
end

