-- ==== Sys2Proof/Laws/PerInstr.lean ====
section
/-! SUPPORT. A law of every instruction as syntax, one lemma per constructor: the encoding is as long as the
instruction (spec/30_encoding.md R60 to R62). -/

namespace Sys2Proof.Laws.EncodedLength

/-- The encoding of an instruction, where there is one, has the instruction's length: one opcode byte and its
operand bytes. -/
def Statement (i : Instr) : Prop :=
  ∀ (t : DispatchTable) (bs : List Byte), encode t i = some bs → bs.length = i.length

theorem of_operands {i : Instr} (h : i.length = i.operands.length + 1) : Statement i := by
  intro t bs hb
  obtain ⟨op, -, rfl⟩ := Option.map_eq_some_iff.1 hb
  simp [h]

theorem ldaImmediate (imm : Byte) : Statement (.ldaImmediate imm) := of_operands rfl
theorem ldaZeroPage (zz : Byte) : Statement (.ldaZeroPage zz) := of_operands rfl
theorem ldaZeroPageIndexedByX (zz : Byte) : Statement (.ldaZeroPageIndexedByX zz) := of_operands rfl
theorem ldaAbsolute (addr : Addr) : Statement (.ldaAbsolute addr) := of_operands rfl
theorem ldaAbsoluteIndexedByX (base : Addr) : Statement (.ldaAbsoluteIndexedByX base) := of_operands rfl
theorem ldaAbsoluteIndexedByY (base : Addr) : Statement (.ldaAbsoluteIndexedByY base) := of_operands rfl
theorem ldaIndirectIndexedByX (zz : Byte) : Statement (.ldaIndirectIndexedByX zz) := of_operands rfl
theorem ldaIndirectIndexedByY (zz : Byte) : Statement (.ldaIndirectIndexedByY zz) := of_operands rfl
theorem unrecognized (op : Byte) : Statement (.unrecognized op) := of_operands rfl

end Sys2Proof.Laws.EncodedLength
end

