-- ==== Sys2Proof/Laws/Step.lean ====
section
/-! SUPPORT. Said once: everything the resolver, an LDA, an instruction and a step can do. -/

namespace Sys2Proof.Machine

/-- What a resolution answers: at most one extra cycle, and none in a mode that cannot cross a page. -/
theorem resolveAbsoluteIndexed_extra_le (base : Addr) (i : Byte) :
    (resolveAbsoluteIndexed base i).extra ≤ 1 := by
  simp only [resolveAbsoluteIndexed]
  split <;> omega

/-- A pointer read raises only what one of its two accesses raises (R119, R120). -/
theorem readPointer_error {s : State} {p : Byte} {w : OutOfRange} (h : readPointer s p = .error w) :
    memRead s w.addr = .error w := by
  unfold readPointer at h
  cases h0 : memRead s (zext16 p) with
  | error w0 =>
    rw [h0] at h
    obtain rfl : w0 = w := Except.error.inj h
    exact memRead_error_self h0
  | ok lo =>
    cases h1 : memRead s (zext16 (p + 1)) with
    | error w1 =>
      rw [h0, h1] at h
      obtain rfl : w1 = w := Except.error.inj h
      exact memRead_error_self h1
    | ok hi => rw [h0, h1] at h; cases h

/-- An operand value raises only what an access raises (R121). -/
theorem operandValue_error {s : State} {o : Operand} {w : OutOfRange}
    (h : operandValue s o = .error w) : memRead s w.addr = .error w := by
  cases o with
  | literal v => simp [operandValue] at h
  | address ea => exact memRead_error_self (a := ea) h

/-- What an LDA can do (R95 to R98): it finishes with some byte and the resolved extra cycles, or it takes
the fault of an access that raises. -/
theorem loadAccumulator_cases {mode : AddressMode} {resolved : Access Resolution} {s : State}
    (hr : ∀ w, resolved = .error w → memRead s w.addr = .error w) :
    (∃ r v, resolved = .ok r ∧ operandValue s r.operand = .ok v ∧
      loadAccumulator mode resolved s = .next (finishLda mode v r.extra s)) ∨
    (∃ w, memRead s w.addr = .error w ∧
      loadAccumulator mode resolved s = .next (takeFault w s)) := by
  cases resolved with
  | error w => exact .inr ⟨w, hr w rfl, rfl⟩
  | ok r =>
    cases hv : operandValue s r.operand with
    | ok v => exact .inl ⟨r, v, rfl, hv, by simp only [loadAccumulator, hv]⟩
    | error w => exact .inr ⟨w, operandValue_error hv, by simp only [loadAccumulator, hv]⟩

/-- The outcomes an instruction of the given entry can have at `s`: an LDA of its mode finishes with at most
one extra cycle, or the fault of an access that raises is taken, or a byte with no entry is skipped. -/
def Ran (entry : Option DispatchEntry) (s : State) (r : StepResult) : Prop :=
  (∃ m v extra, entry = some ⟨m, .lda⟩ ∧ extra ≤ 1 ∧ (chargesCrossing m = false → extra = 0) ∧
    r = .next (finishLda m v extra s)) ∨
  (∃ w, memRead s w.addr = .error w ∧ r = .next (takeFault w s)) ∨
  (entry = none ∧ r = .next { advancePc 1 s with report := some .unrecognized })

theorem ran_of_resolution {m : AddressMode} {r : Resolution} {s : State} (h1 : r.extra ≤ 1)
    (h0 : chargesCrossing m = false → r.extra = 0) :
    Ran (some ⟨m, .lda⟩) s (loadAccumulator m (.ok r) s) := by
  rcases loadAccumulator_cases (mode := m) (resolved := .ok r) (s := s) nofun with
    ⟨r', v, hr, -, hl⟩ | ⟨w, hw, hl⟩
  · cases hr
    exact .inl ⟨m, v, r.extra, rfl, h1, h0, hl⟩
  · exact .inr (.inl ⟨w, hw, hl⟩)

theorem ran_of_pointer {m : AddressMode} {f : Addr → Resolution} {s : State} (p : Byte)
    (h1 : ∀ ea, (f ea).extra ≤ 1) (h0 : chargesCrossing m = false → ∀ ea, (f ea).extra = 0) :
    Ran (some ⟨m, .lda⟩) s (loadAccumulator m (readPointer s p >>= fun ea => .ok (f ea)) s) := by
  cases hp : readPointer s p with
  | error w => exact .inr (.inl ⟨w, readPointer_error hp, rfl⟩)
  | ok ea => exact ran_of_resolution (h1 ea) (h0 · ea)

/-- What an instruction can do. -/
theorem exec_cases (i : Instr) (s : State) : Ran i.entry s (exec i s) := by
  cases i with
  | ldaImmediate imm =>
    exact ran_of_resolution (r := resolveImmediate imm) (Nat.zero_le 1) fun _ => rfl
  | ldaZeroPage zz =>
    exact ran_of_resolution (r := resolveZeroPage zz) (Nat.zero_le 1) fun _ => rfl
  | ldaZeroPageIndexedByX zz =>
    exact ran_of_resolution (r := resolveZeroPageIndexed zz s.x) (Nat.zero_le 1) fun _ => rfl
  | ldaAbsolute addr =>
    exact ran_of_resolution (r := resolveAbsolute addr) (Nat.zero_le 1) fun _ => rfl
  | ldaAbsoluteIndexedByX base =>
    exact ran_of_resolution (resolveAbsoluteIndexed_extra_le base s.x) nofun
  | ldaAbsoluteIndexedByY base =>
    exact ran_of_resolution (resolveAbsoluteIndexed_extra_le base s.y) nofun
  | ldaIndirectIndexedByX zz =>
    exact ran_of_pointer (f := fun ea => ⟨.address ea, 0⟩) (zz + s.x) (fun _ => Nat.zero_le 1)
      fun _ _ => rfl
  | ldaIndirectIndexedByY zz =>
    exact ran_of_pointer (f := fun ea => resolveAbsoluteIndexed ea s.y) zz
      (fun ea => resolveAbsoluteIndexed_extra_le ea s.y) nofun
  | unrecognized op => exact .inr (.inr ⟨rfl, rfl⟩)

/-- A byte placed in memory is written at its address. -/
theorem placeByte_of_lt {s : State} {a : Addr} (v : Byte) (h : a.toNat < s.config.memSize) :
    s.placeByte a v = { s with mem := Memory.write s.mem a.toNat v } := by
  simp [State.placeByte, memIndex, h]

/-- The entry of an assembled instruction is the entry it was assembled from (R64). -/
@[simp] theorem instrOf_entry (e : DispatchEntry) (b1 b2 : Byte) : (instrOf e b1 b2).entry = some e := by
  obtain ⟨m, o⟩ := e
  cases o
  cases m <;> rfl

/-- What a fetch can do (R57, R92, R93): an access of it raises, or the opcode byte at PC is read and the
instruction is the one its entry names. -/
theorem fetchInstr_cases (s : State) :
    (∃ w, memRead s w.addr = .error w ∧ fetchInstr s = .error w) ∨
    (∃ op i, memRead s s.pc = .ok op ∧ fetchInstr s = .ok i ∧ i.entry = s.config.dispatch.lookup op) := by
  unfold fetchInstr
  cases h0 : memRead s s.pc with
  | error w => exact .inl ⟨w, memRead_error_self h0, rfl⟩
  | ok op =>
    cases hl : s.config.dispatch.lookup op with
    | none => exact .inr ⟨op, .unrecognized op, rfl, by simp [bind, Except.bind, hl], hl.symm⟩
    | some e =>
      cases h1 : memRead s (s.pc + 1) with
      | error w => exact .inl ⟨w, memRead_error_self h1, by simp [bind, Except.bind, hl]⟩
      | ok b1 =>
        by_cases hw : e.mode.operandBytes = 1
        · exact .inr ⟨op, instrOf e b1 0, rfl, by simp [bind, Except.bind, hl, hw], by simp [hl]⟩
        · cases h2 : memRead s (s.pc + 2) with
          | error w => exact .inl ⟨w, memRead_error_self h2, by simp [bind, Except.bind, hl, hw]⟩
          | ok b2 =>
            exact .inr ⟨op, instrOf e b1 b2, rfl, by simp [bind, Except.bind, hl, hw], by simp [hl]⟩

/-- What a step can do (R91, R98): nothing when halted; else it runs the instruction whose entry the byte at
PC has, or takes the fault of an access that raises. -/
theorem step_cases (s : State) :
    (∃ w, s.faultLatch = some w ∧ step s = .fault (.halted w)) ∨
    (s.faultLatch = none ∧ ∃ w, memRead s w.addr = .error w ∧ step s = .next (takeFault w s)) ∨
    (s.faultLatch = none ∧ ∃ op, memRead s s.pc = .ok op ∧
      Ran (s.config.dispatch.lookup op) s (step s)) := by
  cases hf : s.faultLatch with
  | some w => exact .inl ⟨w, rfl, by simp only [step, hf]⟩
  | none =>
    rcases fetchInstr_cases s with ⟨w, hw, hx⟩ | ⟨op, i, ho, hx, hi⟩
    · exact .inr (.inl ⟨rfl, w, hw, by simp only [step, hf, hx]⟩)
    · have hs : step s = exec i s := by simp only [step, hf, hx]
      exact .inr (.inr ⟨rfl, op, ho, hi ▸ hs ▸ exec_cases i s⟩)

end Sys2Proof.Machine
end

