-- ==== Sys2Proof/Laws/Run.lean ====
section
/-! SUPPORT. Runs, and the frame and the report of one step. -/

namespace Sys2Proof.Machine

theorem core_run_next {M : Host.Core} {k : Nat} {s t : M.State} (h : M.step s = .next t) :
    M.run (k + 1) s = M.run k t := by
  simp only [Host.Core.run, h]

theorem core_run_fault {M : Host.Core} {k : Nat} {s : M.State} {r : M.Fault} (h : M.step s = .fault r) :
    M.run (k + 1) s = .fault r := by
  simp only [Host.Core.run, h]

theorem core_run_refused {M : Host.Core} {k : Nat} {s : M.State} {r : M.Refusal}
    (h : M.step s = .refused r) : M.run (k + 1) s = .refused r := by
  simp only [Host.Core.run, h]

/-- A run of the host's core is a run of `step`. -/
theorem core_run_eq_runSteps (k : Nat) (s : State) : Host.Core.run Sys2Proof.core k s = runSteps k s := by
  induction k generalizing s with
  | zero => rfl
  | succ k ih =>
    rw [runSteps]
    cases hs : step s with
    | next t => exact (core_run_next (M := Sys2Proof.core) hs).trans (ih t)
    | fault r => exact core_run_fault (M := Sys2Proof.core) hs
    | refused r => exact core_run_refused (M := Sys2Proof.core) hs

theorem runSteps_succ_next {k : Nat} {s t : State} (h : step s = .next t) :
    runSteps (k + 1) s = runSteps k t := by
  simp only [runSteps, h]

/-- A run that goes on past one step has that step. -/
theorem runSteps_succ_cases {k : Nat} {s u : State} (h : runSteps (k + 1) s = .next u) :
    ∃ t, step s = .next t ∧ runSteps k t = .next u := by
  rw [runSteps] at h
  cases hs : step s with
  | next t => exact ⟨t, rfl, by simpa only [hs] using h⟩
  | fault r => simp only [hs] at h; cases h
  | refused r => simp only [hs] at h; cases h

/-- The next state of a step is one of three: an LDA finished, a fault taken, a byte skipped. -/
theorem step_next_cases {s t : State} (h : step s = .next t) :
    s.faultLatch = none ∧
    ((∃ op m v extra, memRead s s.pc = .ok op ∧ s.config.dispatch.lookup op = some ⟨m, .lda⟩ ∧
        extra ≤ 1 ∧ (chargesCrossing m = false → extra = 0) ∧ t = finishLda m v extra s) ∨
      (∃ w, memRead s w.addr = .error w ∧ t = takeFault w s) ∨
      (∃ op, memRead s s.pc = .ok op ∧ s.config.dispatch.lookup op = none ∧
        t = { advancePc 1 s with report := some .unrecognized })) := by
  rcases step_cases s with ⟨w, -, hs⟩ | ⟨hf, w, hw, hs⟩ | ⟨hf, op, ho, hs⟩
  · rw [h] at hs; cases hs
  · rw [h] at hs
    exact ⟨hf, .inr (.inl ⟨w, hw, Host.Outcome.next.inj hs⟩)⟩
  · rw [h] at hs
    rcases hs with ⟨m, v, e, he, h1, h0, hs⟩ | ⟨w, hw, hs⟩ | ⟨he, hs⟩
    · exact ⟨hf, .inl ⟨op, m, v, e, ho, he, h1, h0, Host.Outcome.next.inj hs⟩⟩
    · exact ⟨hf, .inr (.inl ⟨w, hw, Host.Outcome.next.inj hs⟩)⟩
    · exact ⟨hf, .inr (.inr ⟨op, ho, he, Host.Outcome.next.inj hs⟩)⟩

/-- No step writes the configuration, memory, X or Y. -/
theorem step_frame {s t : State} (h : step s = .next t) :
    t.config = s.config ∧ t.mem = s.mem ∧ t.x = s.x ∧ t.y = s.y := by
  obtain ⟨-, ⟨op, m, v, e, -, -, -, -, rfl⟩ | ⟨w, -, rfl⟩ | ⟨op, -, -, rfl⟩⟩ := step_next_cases h <;> simp

end Sys2Proof.Machine
end

