-- ==== Sys2Proof/Machine/Assembly.lean ====
section
/-! DEFINITION. The assembler syntax of spec/30_encoding.md R69 (decision D20): how an instruction is written
in a listing. The assembler's other half, from an instruction to its bytes, is `encode`. -/

namespace Sys2Proof

/-- One hexadecimal digit, capital letters (log 15). -/
def hexDigit (n : Nat) : Char := Nat.digitChar n |>.toUpper

/-- `nn`: a byte as two hexadecimal digits. -/
def hexByte (b : Byte) : List Char := [hexDigit (b.toNat / 16), hexDigit (b.toNat % 16)]

/-- `hhll`: an address as four hexadecimal digits. -/
def hexAddr (a : Addr) : List Char := hexByte (highByte a) ++ hexByte (lowByte a)

/-- An instruction as R69 writes it, character by character. -/
def Instr.listing : Instr → List Char
  | .ldaImmediate imm => "LDA #$".toList ++ hexByte imm
  | .ldaZeroPage zz => "LDA $".toList ++ hexByte zz
  | .ldaZeroPageIndexedByX zz => "LDA $".toList ++ hexByte zz ++ ",X".toList
  | .ldaAbsolute addr => "LDA $".toList ++ hexAddr addr
  | .ldaAbsoluteIndexedByX base => "LDA $".toList ++ hexAddr base ++ ",X".toList
  | .ldaAbsoluteIndexedByY base => "LDA $".toList ++ hexAddr base ++ ",Y".toList
  | .ldaIndirectIndexedByX zz => "LDA ($".toList ++ hexByte zz ++ ",X)".toList
  | .ldaIndirectIndexedByY zz => "LDA ($".toList ++ hexByte zz ++ "),Y".toList
  | .unrecognized op => ".byte $".toList ++ hexByte op

end Sys2Proof
end

