-- ==== Sys2Proof/Tests/Slice0.lean ====
section
/-! SUPPORT. The model's own tests. Expected values come from spec/95_test_vectors.md (ids W, U, LD, FL, CA, AM) or are
worked by hand from the rule named. Then, for every statement with hypotheses, a witness that meets them. -/

namespace Sys2Proof.Tests
open Sys2Proof Sys2Proof.Machine Sys2Proof.Machine.Claims

/-- The start of section 2.2 of the vectors: A = 11, X = 22, Y = 33, Counter = 100, unless changed. -/
def start (pc : Addr) (mem : Memory) (x : Byte := 0x22) (y : Byte := 0x33) : State :=
  { State.reset with a := 0x11, x := x, y := y, pc := pc, mem := mem, counter := 100 }

/-- The same start under another configuration. -/
def State.under (s : State) (c : Config) : State := { s with config := c }

/-- A check of the state one step reaches. -/
def after (s : State) (check : State → Bool) : Bool :=
  match step s with
  | .next t => check t
  | .fault _ => false
  | .refused _ => false

/-- A table that binds all eight modes, the indirect ones to the 6502's bytes (R66). -/
def allModes : DispatchTable :=
  [ (0xA1, ⟨.indirectIndexedByX, .lda⟩), (0xA5, ⟨.zeroPage, .lda⟩), (0xA9, ⟨.immediate, .lda⟩),
    (0xAD, ⟨.absolute, .lda⟩), (0xB1, ⟨.indirectIndexedByY, .lda⟩), (0xB5, ⟨.zeroPageIndexedByX, .lda⟩),
    (0xB9, ⟨.absoluteIndexedByY, .lda⟩), (0xBD, ⟨.absoluteIndexedByX, .lda⟩) ]

def cfgAllModes : Config := { Config.reference with dispatch := allModes }
def cfgWrap : Config := { Config.reference with oorPolicy := .wrap }
def cfgFull : Config := { Config.reference with memSize := 65536 }
def cfgSmall : Config := { Config.reference with memSize := 256 }
def cfgBit6 : Config := { Config.reference with negativeBit := .bit6 }
def cfgSaturate : Config := { Config.reference with cycleOverflow := .saturate }

/-! ## WellFormed: a term each check refuses -/

theorem test_unbound_mode_ill_formed :
    (Instr.ldaIndirectIndexedByX 0x20).wellFormed referenceDispatch = false := by decide
theorem test_bound_byte_not_unrecognized :
    (Instr.unrecognized 0xA9).wellFormed referenceDispatch = false := by decide
theorem test_each_mode_unbound_in_empty_table (b : Byte) (a : Addr) :
    [Instr.ldaImmediate b, .ldaZeroPage b, .ldaZeroPageIndexedByX b, .ldaAbsolute a,
      .ldaAbsoluteIndexedByX a, .ldaAbsoluteIndexedByY a, .ldaIndirectIndexedByX b,
      .ldaIndirectIndexedByY b].all (fun i => !i.wellFormed []) = true := rfl
theorem test_table_with_a_byte_twice_ill_formed :
    DispatchTable.wf [(0xA9, ⟨.immediate, .lda⟩), (0xA9, ⟨.zeroPage, .lda⟩)] = false := by decide
theorem test_small_memory_illegal : ({ Config.reference with memSize := 255 } : Config).legal = false := by
  decide
theorem test_zero_cost_illegal :
    ({ Config.reference with baseCost := { referenceBaseCosts with absolute := 0 } } : Config).legal = false := by
  decide
theorem test_memory_with_unlisted_value_not_canonical : Memory.wf [(3, 0x00)] = false := by decide

/-! ## Decode: words written from the encodings of R61, R65 -/

theorem test_decode_immediate : decode referenceDispatch [0b10101001, 0x00] = .ok (.ldaImmediate 0x00, []) := rfl
theorem test_decode_zero_page : decode referenceDispatch [0b10100101, 0x10] = .ok (.ldaZeroPage 0x10, []) := rfl
theorem test_decode_zero_page_x :
    decode referenceDispatch [0b10110101, 0x01] = .ok (.ldaZeroPageIndexedByX 0x01, []) := rfl
theorem test_decode_absolute :
    decode referenceDispatch [0b10101101, 0x34, 0x12] = .ok (.ldaAbsolute 0x1234, []) := rfl
theorem test_decode_absolute_x :
    decode referenceDispatch [0b10111101, 0xF0, 0x12] = .ok (.ldaAbsoluteIndexedByX 0x12F0, []) := rfl
theorem test_decode_absolute_y :
    decode referenceDispatch [0b10111001, 0xF0, 0x12] = .ok (.ldaAbsoluteIndexedByY 0x12F0, []) := rfl
theorem test_decode_indirect_x_where_bound :
    decode allModes [0xA1, 0x20] = .ok (.ldaIndirectIndexedByX 0x20, []) := rfl
theorem test_decode_indirect_y_where_bound :
    decode allModes [0xB1, 0x20] = .ok (.ldaIndirectIndexedByY 0x20, []) := rfl
theorem test_decode_indirect_unbound : decode referenceDispatch [0xA1, 0x20] = .ok (.unrecognized 0xA1, [0x20]) :=
  rfl
theorem test_decode_short : decode referenceDispatch [0xAD, 0x34] = .error (.missingOperand 0xAD) := rfl
theorem test_table_word_absolute : decodeTableWord 24 0x1234AD = some (.ldaAbsolute 0x1234) := by decide
theorem test_table_word_short : decodeTableWord 8 0xA9 = some (.ldaImmediate 0x00) := by decide
theorem test_encode_absolute : encode referenceDispatch (.ldaAbsolute 0x1234) = some [0xAD, 0x34, 0x12] := by
  decide

/-! ## One step of each instruction -/

/-- W6. -/
theorem test_lda_immediate_zero : after (start 0x0000 [(0, 0xA9)]) (fun t =>
    t.a == 0x00 && t.z && !t.n && t.pc == 0x0002 && t.report == some (.executed 2) && t.counter == 102) = true := by
  decide
/-- LD1 with N_BIT = 6. -/
theorem test_lda_immediate_bit6 : after (State.under (start 0x0200 [(0x200, 0xA9), (0x201, 0x7F)]) cfgBit6)
    (fun t => t.a == 0x7F && !t.z && t.n && t.pc == 0x0202) = true := by decide
/-- W7. -/
theorem test_lda_zero_page : after (start 0x0000 [(0, 0xA5), (1, 0x10), (0x10, 0x80)]) (fun t =>
    t.a == 0x80 && !t.z && t.n && t.pc == 0x0002 && t.report == some (.executed 3)) = true := by decide
/-- R133: `A5 01` at 0x0000 loads its own operand byte. -/
theorem test_lda_zero_page_own_byte : after (start 0x0000 [(0, 0xA5), (1, 0x01)]) (fun t => t.a == 0x01) = true := by
  decide
/-- R134 example: X = FF, `B5 01` at 0 reads address 0x0000. -/
theorem test_lda_zero_page_x_wraps : after (start 0x0000 [(0, 0xB5), (1, 0x01)] (x := 0xFF)) (fun t =>
    t.a == 0xB5 && t.n && t.report == some (.executed 4)) = true := by decide
/-- LD4. -/
theorem test_lda_zero_page_x : after (start 0x0200 [(0x10, 0x80), (0x200, 0xB5), (0x201, 0xF0)] (x := 0x20))
    (fun t => t.a == 0x80 && t.x == 0x20 && t.pc == 0x0202) = true := by decide
/-- LD5. -/
theorem test_lda_absolute_last_byte :
    after (start 0x0200 [(0x200, 0xAD), (0x201, 0xFF), (0x202, 0x7F), (0x7FFF, 0xC3)]) (fun t =>
      t.a == 0xC3 && t.n && t.pc == 0x0203 && t.report == some (.executed 4)) = true := by decide
/-- LD6. -/
theorem test_lda_absolute_out_of_range : after (start 0x0200 [(0x200, 0xAD), (0x202, 0x80)]) (fun t =>
    t.a == 0x11 && t.counter == 100 && t.faultLatch == some ⟨0x8000⟩
      && t.report == some (.faulted ⟨0x8000⟩)) = true := by decide
/-- R136 example: X = 10, base 12F0 crosses to 1300. -/
theorem test_lda_absolute_x_crossing :
    after (start 0x0000 [(0, 0xBD), (1, 0xF0), (2, 0x12), (0x12F0, 0x77)] (x := 0x10)) (fun t =>
      t.a == 0x00 && t.z && t.pc == 0x0003 && t.report == some (.executed 5)) = true := by decide
/-- LD8. -/
theorem test_lda_absolute_x_no_crossing :
    after (start 0x0200 [(0x200, 0xBD), (0x202, 0x12), (0x1300, 0x55)] (x := 0xFF)) (fun t =>
      t.a == 0x00 && t.report == some (.executed 4)) = true := by decide
/-- LD9: Y = 80, and X plays no part. -/
theorem test_lda_absolute_y_crossing :
    after (start 0x0200 [(0x200, 0xB9), (0x201, 0x80), (0x202, 0x30), (0x3100, 0x40)] (y := 0x80)) (fun t =>
      t.a == 0x40 && !t.n && t.report == some (.executed 5)) = true := by decide
/-- LD10. -/
theorem test_lda_absolute_y_no_crossing :
    after (start 0x0200 [(0x200, 0xB9), (0x201, 0x80), (0x202, 0x30), (0x30FF, 0x9A)] (y := 0x7F)) (fun t =>
      t.a == 0x9A && t.n && t.report == some (.executed 4)) = true := by decide
/-- R119 by hand: X = 01, `A1 FE` reads the pointer at FF and 00 (wrapped): 0xA1 at 00 is its high byte. -/
theorem test_lda_indirect_x_pointer_wraps :
    after (State.under (start 0x0000 [(0, 0x12), (0xFF, 0x34), (0x100, 0xA1), (0x101, 0xFE), (0x1234, 0x99)]
      (x := 0x01)) cfgAllModes) (fun t => t.report == some .unrecognized) = true
    ∧ after { State.under (start 0x0100 [(0, 0x12), (0xFF, 0x34), (0x100, 0xA1), (0x101, 0xFE), (0x1234, 0x99)]
      (x := 0x01)) cfgAllModes with counter := 0 } (fun t =>
        t.a == 0x99 && t.pc == 0x0102 && t.counter == 6) = true := by decide
/-- R120 by hand: Y = 01 is added after the pointer 12FF is read: 1300, a crossing, 5 + 1. -/
theorem test_lda_indirect_y_crossing :
    after (State.under (start 0x0100 [(0x20, 0xFF), (0x21, 0x12), (0x100, 0xB1), (0x101, 0x20), (0x1300, 0x42)]
      (y := 0x01)) cfgAllModes) (fun t => t.a == 0x42 && t.report == some (.executed 6)) = true := by decide
/-- U2. -/
theorem test_unrecognized : after (start 0x0000 [(0, 0xEA)]) (fun t =>
    t.pc == 0x0001 && t.a == 0x11 && t.counter == 100 && t.report == some .unrecognized) = true := by decide
/-- U6: PC wraps from FFFF. -/
theorem test_unrecognized_pc_wraps : after (State.under (start 0xFFFF [(0xFFFF, 0x02)]) cfgFull) (fun t =>
    t.pc == 0x0000) = true := by decide

/-! ## Faults, flags, counter, host interface, listing -/

/-- U8: the operand byte is out of range. -/
theorem test_operand_fetch_faults : after (start 0x7FFF [(0x7FFF, 0xA9)]) (fun t =>
    t.faultLatch == some ⟨0x8000⟩ && t.a == 0x11) = true := by decide
/-- U10: under Wrap the operand is read at 0000. -/
theorem test_operand_fetch_wraps : after (State.under (start 0x7FFF [(0, 0x55), (0x7FFF, 0xA9)]) cfgWrap) (fun t =>
    t.a == 0x55 && t.pc == 0x8001 && t.counter == 102) = true := by decide
/-- U11. -/
theorem test_halted_has_no_step :
    step { start 0x0000 [] with faultLatch := some ⟨0x8000⟩ } = .fault (.halted ⟨0x8000⟩) := rfl
/-- FL4 and FL6. -/
theorem test_negative_bits : (negativeOf .bit7 0x40, negativeOf .bit6 0x40, negativeOf .bit7 0x80,
    negativeOf .bit6 0x80) = (false, true, true, false) := by decide
/-- AM17: FFFF + 01 wraps to 0000 and crosses. -/
theorem test_index_wraps_and_crosses : resolveAbsoluteIndexed 0xFFFF 0x01 = ⟨.address 0x0000, 1⟩ := by decide
/-- CA6, both policies. -/
theorem test_pulse_overflow :
    (counterAfterPulse Config.reference (2 ^ 64 - 2) 5, counterAfterPulse cfgSaturate (2 ^ 64 - 2) 5)
      = (3, 2 ^ 64 - 1) := by decide
/-- CA8. -/
theorem test_negative_pulse_refused : hostOp (.counterPulse (-1)) (start 0 []) = .refused .pulseOperand := rfl
/-- R43, R102: the last byte in range, and the first out of it. -/
theorem test_load_bound : (match hostOp (.load 32767 [0x5A]) State.reset with
      | .next t => t.mem == [(32767, 0x5A)] | .fault _ => false | .refused _ => false) = true
    ∧ hostOp (.load 32767 [0x5A, 0x5B]) State.reset = .refused .loadOutsideMemory := ⟨by decide, rfl⟩
/-- R69: the examples of its table. -/
theorem test_listing : [Instr.ldaImmediate 0x00, .ldaZeroPage 0x10, .ldaZeroPageIndexedByX 0x01,
      .ldaAbsolute 0x1234, .ldaAbsoluteIndexedByX 0x12F0, .ldaAbsoluteIndexedByY 0x12F0].map Instr.listing
    = ["LDA #$00".toList, "LDA $10".toList, "LDA $01,X".toList, "LDA $1234".toList, "LDA $12F0,X".toList,
      "LDA $12F0,Y".toList] := by decide
/-- R69: an assembler rejects the two unbound forms. -/
theorem test_unbound_forms_not_assembled : encode referenceDispatch (.ldaIndirectIndexedByX 0x20) = none
    ∧ encode referenceDispatch (.ldaIndirectIndexedByY 0x20) = none := by decide
/-- Writing an unlisted byte removes the entry. -/
theorem test_write_unlisted_removes : Memory.write [(3, 0x07), (5, 0x09)] 3 0x00 = [(5, 0x09)] := by decide
/-- The word the host places is the instruction the next step runs. -/
theorem test_placed_word_runs :
    after (State.reset.withFetchWord 16 0x42A9) (fun t => t.a == 0x42 && t.pc == 0x0002) = true := by decide

/-! ## Witnesses: concrete inputs that meet the hypotheses of each statement, clause by clause -/

theorem witness_OperandAssemblyOfEveryMode :
    allModes.lookup 0xA9 = some ⟨.immediate, .lda⟩ ∧ allModes.lookup 0xA5 = some ⟨.zeroPage, .lda⟩ ∧
    allModes.lookup 0xB5 = some ⟨.zeroPageIndexedByX, .lda⟩ ∧ allModes.lookup 0xAD = some ⟨.absolute, .lda⟩ ∧
    allModes.lookup 0xBD = some ⟨.absoluteIndexedByX, .lda⟩ ∧
    allModes.lookup 0xB9 = some ⟨.absoluteIndexedByY, .lda⟩ ∧
    allModes.lookup 0xA1 = some ⟨.indirectIndexedByX, .lda⟩ ∧
    allModes.lookup 0xB1 = some ⟨.indirectIndexedByY, .lda⟩ := by decide
theorem witness_EncodedInstructionDecodesBack : allModes.wf = true ∧
    (Instr.ldaIndirectIndexedByY 0xFF).wellFormed allModes = true ∧
    (Instr.ldaAbsolute 0xFFFF).wellFormed allModes = true ∧
    (Instr.unrecognized 0x00).wellFormed allModes = true := by decide
theorem witness_DecodedInstructionEncodesBack :
    decode referenceDispatch [0xBD, 0xFF, 0xFF, 0x01] = .ok (.ldaAbsoluteIndexedByX 0xFFFF, [0x01]) := rfl
theorem witness_DecoderRejectsOnlyShortInput : referenceDispatch.lookup 0xAD = some ⟨.absolute, .lda⟩ ∧
    [(0xAD : Byte), 0x00].length < 3 ∧ 3 ≤ [(0xAD : Byte), 0x00, 0x00].length := by decide
theorem witness_LdaZeroPageLoadsByte : 256 ≤ (State.under (start 0 []) cfgSmall).config.memSize ∧
    cfgSmall.legal = true := by decide
theorem witness_LdaZeroPageIndexedWrapsInZeroPage :
    256 ≤ (State.under (start 0 [] (x := 0xFF)) cfgSmall).config.memSize := by decide
theorem witness_LdaAbsoluteLoadsByte : readable (start 0 []) 0x7FFF ∧
    readable (State.under (start 0 []) cfgWrap) 0xFFFF := by decide
theorem witness_LdaAbsoluteIndexedByXLoadsByte :
    readable (start 0 [] (x := 0x01)) (indexed 0xFFFF 0x01) := by decide
theorem witness_LdaAbsoluteIndexedByYLoadsByte :
    readable (start 0 [] (y := 0x01)) (indexed 0x7FFE 0x01) := by decide
theorem witness_LdaIndirectIndexedByXLoadsByte : 256 ≤ (start 0 [(0, 0x7F), (255, 0xFF)]).config.memSize ∧
    readable (start 0 [(0, 0x7F), (255, 0xFF)] (x := 0x01))
      (zeroPagePointer (start 0 [(0, 0x7F), (255, 0xFF)] (x := 0x01)) (0xFE + 0x01)) := by decide
theorem witness_LdaIndirectIndexedByYLoadsByte : 256 ≤ (start 0 [(0, 0x7F), (255, 0xFE)]).config.memSize ∧
    readable (start 0 [(0, 0x7F), (255, 0xFE)] (y := 0x01))
      (indexed (zeroPagePointer (start 0 [(0, 0x7F), (255, 0xFE)]) 0xFF) 0x01) := by decide
theorem witness_OutOfRangeDataReadTakesFault :
    (start 0 []).config.oorPolicy = .fault ∧ (start 0 []).config.memSize ≤ (0x8000 : Addr).toNat ∧
    (start 0 []).config.memSize ≤ (indexed 0x7FFF 0x01).toNat ∧ 256 ≤ (start 0 []).config.memSize ∧
    (start 0 []).config.memSize ≤ (zeroPagePointer (start 0 [(1, 0x80)]) (0xFF + 0x01)).toNat ∧
    (start 0 []).config.memSize ≤ (indexed (zeroPagePointer (start 0 [(0, 0xFF), (1, 0x7F)]) 0x00) 0x01).toNat := by
  decide
theorem witness_InstructionFrame :
    (match exec (.ldaAbsolute 0x8000) (start 0 []) with
      | .next t => (t.report == some (.faulted ⟨0x8000⟩)) | .fault _ => false | .refused _ => false) = true ∧
    (match exec (.unrecognized 0x02) (start 0 []) with
      | .next t => (t.report == some .unrecognized) | .fault _ => false | .refused _ => false) = true := by decide
theorem witness_OperandValueOfLiteralAndAddress :
    (0x7FFF : Addr).toNat < (start 0 []).config.memSize ∧ (start 0 []).config.memSize ≤ (0x8000 : Addr).toNat ∧
    (start 0 []).config.oorPolicy = .fault ∧ (State.under (start 0 []) cfgWrap).config.oorPolicy = .wrap := by
  decide
theorem witness_PcAdvancesByOpcodeAndOperandWidth :
    (∃ r, resolve .absoluteIndexedByX (start 0x7FFE []) = .ok r) ∧
    (∃ r, resolve .indirectIndexedByY (start 0x7FFF []) = .ok r) ∧
    (∃ t, step (State.under (start 0xFFFF [(0xFFFF, 0xA9)]) cfgFull) = .next t ∧
      t.report = some (.executed 2)) := ⟨⟨_, rfl⟩, ⟨_, rfl⟩, ⟨_, rfl, rfl⟩⟩
theorem witness_ResolverWritesOnlyPc :
    (∃ r, resolve .immediate (start 0 []) = .ok r) ∧ (∃ r, resolve .absolute (start 0 []) = .ok r) :=
  ⟨⟨_, rfl⟩, ⟨_, rfl⟩⟩
theorem witness_StepRunsDecodedInstruction : ∃ (s : State) (i : Instr), s.faultLatch = none ∧
    (∀ j, j < 3 → readable s (afterPc s j)) ∧
    decode s.config.dispatch (bytesFromPc s 3) = .ok (i, []) :=
  ⟨start 0x7FFD [(0x7FFD, 0xAD), (0x7FFE, 0x34), (0x7FFF, 0x12)], .ldaAbsolute 0x1234, rfl, by decide, rfl⟩
theorem witness_StepFaultsAtFirstUnreadableByte :
    (start 0 []).faultLatch = none ∧ ¬ readable (start 0x8000 []) (start 0x8000 []).pc ∧
    (let s := start 0x7FFF [(0x7FFF, 0xA9)]
     readable s s.pc ∧ s.config.dispatch.lookup (byteAt s s.pc) = some ⟨.immediate, .lda⟩ ∧
       ¬ readable s (afterPc s 1)) ∧
    (let s := start 0x7FFE [(0x7FFE, 0xAD)]
     readable s s.pc ∧ s.config.dispatch.lookup (byteAt s s.pc) = some ⟨.absolute, .lda⟩ ∧
       readable s (afterPc s 1) ∧ ¬ readable s (afterPc s 2)) := by decide
theorem witness_StepOfLdaImmediate :
    (let s := start 0x7FFF [(0x7FFF, 0xA9)]
     s.faultLatch = none ∧ s.config.dispatch = referenceDispatch ∧ readable s s.pc ∧ byteAt s s.pc = 0xA9 ∧
       ¬ readable s (afterPc s 1)) ∧
    (let s := start 0x7FFE [(0x7FFE, 0xA9)]
     readable s s.pc ∧ byteAt s s.pc = 0xA9 ∧ readable s (afterPc s 1) ∧ s.config.baseCost = referenceBaseCosts) ∧
    ¬ readable (start 0x8000 []) (start 0x8000 []).pc := by decide
theorem witness_StepOfLdaZeroPage :
    (let s := start 0x7FFF [(0x7FFF, 0xA5)]
     s.faultLatch = none ∧ s.config.dispatch = referenceDispatch ∧ 256 ≤ s.config.memSize ∧ readable s s.pc ∧
       byteAt s s.pc = 0xA5 ∧ ¬ readable s (afterPc s 1)) ∧
    (let s := start 0x7FFE [(0x7FFE, 0xA5)]
     readable s s.pc ∧ byteAt s s.pc = 0xA5 ∧ readable s (afterPc s 1) ∧ s.config.baseCost = referenceBaseCosts) ∧
    (let s := start 0x8000 []
     s.faultLatch = none ∧ s.config.dispatch = referenceDispatch ∧ 256 ≤ s.config.memSize ∧ ¬ readable s s.pc) := by
  decide
theorem witness_UnrecognizedOpcodeIsSkipped :
    (let s := start 0x7FFF []
     s.faultLatch = none ∧ readable s s.pc ∧ s.config.dispatch.lookup (byteAt s s.pc) = none) := by decide
theorem witness_OnlyConstructionOpensTheLatch : ∃ s t : State, s.faultLatch = some ⟨0x8000⟩ ∧
    hostOp .counterReset s = .next t :=
  ⟨{ State.reset with faultLatch := some ⟨0x8000⟩, report := some (.faulted ⟨0x8000⟩) }, _, rfl, rfl⟩
theorem witness_StepHasOneOfThreeOutcomes : (start 0 []).config.legal = true ∧ (start 0 []).faultLatch = none := by
  decide
theorem witness_FaultedStepKeepsItsRegisters : ∃ s t : State, s.faultLatch = none ∧ step s = .next t ∧
    t.faultLatch = some ⟨0x8000⟩ := ⟨start 0x8000 [], _, rfl, rfl, rfl⟩
theorem witness_NoFaultWhenEveryAddressIsBacked : (State.under (start 0xFFFF []) cfgWrap).config.oorPolicy = .wrap ∧
    (State.under (start 0xFFFF []) cfgFull).config.memSize = 65536 ∧ (start 0 []).faultLatch = none := by decide
theorem witness_RunNeverWritesMemoryOrIndexRegisters :
    ∃ t, runSteps 2 (start 0x7FFE [(0x7FFE, 0xA9)]) = .next t := ⟨_, rfl⟩
theorem witness_FlagsReflectLastLoad :
    ((start 0 []).flagsReflectA = true ∧ ∃ t, step (start 0 [(0, 0xA9)]) = .next t ∧ t.report = some (.executed 2)) ∧
    ∃ t, step (start 0 []) = .next t ∧ t.report = some .unrecognized :=
  ⟨⟨by decide, _, rfl, rfl⟩, _, rfl, rfl⟩
theorem witness_FlagsAreWrittenOnlyThroughSetZn :
    (∃ t, hostOp .step (start 0 [(0, 0xA9)]) = .next t) ∧ (∃ t, hostOp (.setA 0x80) (start 0 []) = .next t) :=
  ⟨⟨_, rfl⟩, ⟨_, rfl⟩⟩
theorem witness_StepKeepsTheInvariant : (start 0x7FFF [(0x7FFF, 0xA9)]).inv = true ∧
    ∃ t, step (start 0x7FFF [(0x7FFF, 0xA9)]) = .next t := ⟨by decide, _, rfl⟩
theorem witness_HostOperationsKeepTheInvariant :
    (start 0 []).inv = true ∧ (∃ t, hostOp (.load 32767 [0x5A]) (start 0 []) = .next t) ∧
    (∃ t, hostOp (.construct cfgWrap ⟨1, 2, 3, true, false, [0xA9]⟩) (start 0 []) = .next t) :=
  ⟨by decide, ⟨_, rfl⟩, ⟨_, rfl⟩⟩
theorem witness_ResultsDoNotDependOnTiming :
    sameButTiming (start 0 [(0, 0xA9)])
      { start 0 [(0, 0xA9)] with
        config := { Config.reference with baseCost := { referenceBaseCosts with immediate := 7 } }
        counter := 5
        report := some .unrecognized } ∧
    (∃ t, runSteps 2 (start 0 [(0, 0xA9)]) = .next t) ∧
    (∃ r, runSteps 2 (start 0x8000 []) = .fault r) := ⟨rfl, ⟨_, rfl⟩, ⟨_, rfl⟩⟩
theorem witness_CounterIsSumOfReturnedCosts :
    (start 0 [(0, 0xA9)]).counter < 2 ^ (start 0 [(0, 0xA9)]).config.cycleWidth ∧
    (∃ t, runSteps 2 (start 0 [(0, 0xA9)]) = .next t) ∧ Config.reference.cycleOverflow = .wrap ∧
    cfgSaturate.cycleOverflow = .saturate := ⟨by decide, ⟨_, rfl⟩, rfl, rfl⟩
theorem witness_ConstructionGivesTheStatedValues : Config.reference.legal = true ∧
    ({ Config.reference with memSize := 65537 } : Config).legal = false ∧
    32767 < Config.reference.memSize ∧ (List.replicate 1 (0xA9 : Byte))[0]? = some 0xA9 := by decide
theorem witness_LoadWritesItsBytes : State.reset.report = none ∧ Memory.wf State.reset.mem = true ∧
    32767 + [(0x5A : Byte)].length ≤ State.reset.config.memSize ∧
    State.reset.config.memSize < 32767 + [(0x5A : Byte), 0x5B].length := by decide
theorem witness_HostWritesOnlyBeforeTheFirstStep : State.reset.report = none ∧
    ∃ t, step State.reset = .next t := ⟨rfl, _, rfl⟩
theorem witness_PulseAddsUnderTheOverflowPolicy :
    (2 ^ 64 - 1 < 2 ^ State.reset.config.cycleWidth) ∧ (2 ^ State.reset.config.cycleWidth ≤ 2 ^ 64) ∧
    (-1 : Int) < 0 := by decide
theorem witness_ResetThenPulseGivesItsOperand : 2 ^ 64 - 1 < 2 ^ State.reset.config.cycleWidth := by decide
theorem witness_CounterChangesOnlyByResetAndPulse :
    (∃ t, hostOp .step (start 0 [(0, 0xA9)]) = .next t) ∧ (∃ t, hostOp (.counterPulse 3) (start 0 []) = .next t) ∧
    (∃ t, hostOp .counterReset (start 0 []) = .next t) := ⟨⟨_, rfl⟩, ⟨_, rfl⟩, ⟨_, rfl⟩⟩
theorem witness_PlacedWordIsRun : (start 0x7FFD []).config.dispatch = referenceDispatch ∧
    Memory.wf (start 0x7FFD []).mem = true ∧
    (start 0x7FFD []).pc.toNat + 2 < (start 0x7FFD []).config.memSize ∧
    (start 0x7FFD []).config.memSize ≤ 65536 ∧
    decodeTableWord 24 0x1234AD = some (.ldaAbsolute 0x1234) := by decide

end Sys2Proof.Tests
end

section
/-! The state family (spec/10_state.md): who writes the flags Z and N. -/

namespace Sys2Proof.Machine

/-- Bit N_BIT of a byte is the spec's bit, by its value (R130). -/
theorem negativeOf_eq_negativeValue (b : NegativeBit) (r : Byte) :
    negativeOf b r = Claims.negativeValue b r := by
  cases b with
  | bit7 => exact negativeOf_bit7 r
  | bit6 => exact negativeOf_bit6 r

theorem flagsReflectA_iff (s : State) :
    s.flagsReflectA = true ↔ s.z = zeroOf s.a ∧ s.n = negativeOf s.config.negativeBit s.a := by
  simp [State.flagsReflectA]

/-- The flags after a finished load are those of the byte loaded (R131). -/
@[simp] theorem finishLda_flagsReflectA (m : AddressMode) (v : Byte) (k : Nat) (s : State) :
    (finishLda m v k s).flagsReflectA = true := by
  simp [flagsReflectA_iff]

/-- What a step does to A and the flags (R28, R29): an executed one makes the flags those of the new A, any
other keeps all three. -/
theorem step_flags_cases {s t : State} (h : step s = .next t) :
    ((∃ c, t.report = some (.executed c)) ∧ t.flagsReflectA = true) ∨
    ((∀ c, t.report ≠ some (.executed c)) ∧ t.a = s.a ∧ t.z = s.z ∧ t.n = s.n) := by
  obtain ⟨-, ⟨_, m, v, e, -, -, -, -, rfl⟩ | ⟨w, -, rfl⟩ | ⟨_, -, -, rfl⟩⟩ := step_next_cases h
  · exact .inl ⟨⟨_, finishLda_report m v e s⟩, finishLda_flagsReflectA m v e s⟩
  · exact .inr (by simp)
  · exact .inr (by simp)

/-- An operation allowed only before the first step answers what it was allowed to, and only then (R103). -/
theorem beforeFirstStep_next {s t : State} {r : StepResult} (h : beforeFirstStep s r = .next t) :
    s.report = none ∧ r = .next t := by
  unfold beforeFirstStep at h
  split at h
  · exact ⟨‹_›, h⟩
  · cases h

/-- A load that answers has written its bytes and nothing else (R43). -/
theorem hostLoad_next {s t : State} {addr : Nat} {bytes : List Byte}
    (h : hostLoad addr bytes s = .next t) :
    t = { s with mem := Memory.writeBytes s.mem addr bytes } := by
  unfold hostLoad at h
  split at h
  · exact (Host.Outcome.next.inj h).symm
  · cases h

/-- A pulse that answers has an operand in range and is the core's own pulse (R82, R83). -/
theorem hostPulse_next {s t : State} {n : Int} (h : hostPulse n s = .next t) :
    (0 ≤ n ∧ n ≤ 2 ^ s.config.cycleWidth - 1) ∧ t = pulse n.toNat s := by
  unfold hostPulse at h
  split at h
  · exact ⟨‹_›, (Host.Outcome.next.inj h).symm⟩
  · cases h

/-- A host operation other than a step and a construction leaves Z and N alone (R28, R102). -/
theorem hostOp_keeps_flags {op : HostOp} {s t : State} (hstep : op ≠ .step)
    (hcons : ∀ c d, op ≠ .construct c d) (h : hostOp op s = .next t) : t.z = s.z ∧ t.n = s.n := by
  cases op with
  | construct c d => exact absurd rfl (hcons c d)
  | step => exact absurd rfl hstep
  | load addr bytes =>
    obtain rfl := hostLoad_next (beforeFirstStep_next h).2
    exact ⟨rfl, rfl⟩
  | setPC p => cases (beforeFirstStep_next h).2; exact ⟨rfl, rfl⟩
  | setA v => cases (beforeFirstStep_next h).2; exact ⟨rfl, rfl⟩
  | setX v => cases (beforeFirstStep_next h).2; exact ⟨rfl, rfl⟩
  | setY v => cases (beforeFirstStep_next h).2; exact ⟨rfl, rfl⟩
  | counterReset => cases h; exact ⟨rfl, rfl⟩
  | counterPulse n =>
    obtain ⟨-, rfl⟩ := hostPulse_next h
    exact ⟨rfl, rfl⟩

/-- Settles O34: an executed step makes the flags those of A; any other keeps A, Z, N and the configuration,
so it keeps their agreement too. -/
theorem flagsReflectLastLoad : Obligations.FlagsReflectLastLoad := by
  intro s t h
  obtain ⟨⟨c, hrep⟩, hflags⟩ | ⟨hrep, ha, hz, hn⟩ := step_flags_cases h
  · exact ⟨fun _ => hflags, fun _ _ => hflags, fun hne => absurd hrep (hne c)⟩
  · obtain ⟨hconfig, -⟩ := step_frame h
    exact ⟨by simp only [flagsReflectA_iff, ha, hz, hn, hconfig, imp_self],
      fun c hc => absurd hc (hrep c), fun _ => ⟨hz, hn⟩⟩

/-- Settles O35: a step writes Z and N only as an executed one, by the value of the new A; the other host
operations, a construction apart, do not write them. -/
theorem flagsAreWrittenOnlyThroughSetZn : Obligations.FlagsAreWrittenOnlyThroughSetZn := by
  intro op s t h
  by_cases hcons : ∃ c d, op = .construct c d
  · exact .inr (.inr hcons)
  by_cases hstep : op = .step
  · subst hstep
    obtain ⟨⟨c, hrep⟩, hflags⟩ | ⟨-, -, hz, hn⟩ := step_flags_cases h
    · obtain ⟨hz, hn⟩ := (flagsReflectA_iff t).1 hflags
      exact .inr (.inl ⟨c, rfl, hrep, hz.trans (zeroOf_eq t.a),
        hn.trans (negativeOf_eq_negativeValue _ t.a)⟩)
    · exact .inl ⟨hz, hn⟩
  · exact .inl (hostOp_keeps_flags hstep (fun c d e => hcons ⟨c, d, e⟩) h)

end Sys2Proof.Machine
end

section
/-! The cycle accounting family (spec/40_cycle_accounting.md): who writes Counter. -/

namespace Sys2Proof.Machine

/-- The core's addition at the counter's width is the spec's (R84). -/
theorem counterAfterPulse_eq_counterPlus (s : State) (n : Nat) :
    counterAfterPulse s.config s.counter n = Claims.counterPlus s n := by
  unfold counterAfterPulse Claims.counterPlus
  cases s.config.cycleOverflow <;> rfl

/-- What a step does to Counter (R94, R97): an executed one adds the cost it reports, any other keeps it. -/
theorem step_counter_cases {s t : State} (h : step s = .next t) :
    (∃ c, t.report = some (.executed c) ∧ t.counter = Claims.counterPlus s c) ∨ t.counter = s.counter := by
  obtain ⟨-, ⟨_, m, v, e, -, -, -, -, rfl⟩ | ⟨w, -, rfl⟩ | ⟨_, -, -, rfl⟩⟩ := step_next_cases h
  · exact .inl ⟨_, finishLda_report m v e s,
      (finishLda_counter m v e s).trans (counterAfterPulse_eq_counterPlus s _)⟩
  · exact .inr (takeFault_counter w s)
  · exact .inr (advancePc_counter 1 s)

/-- A write allowed only before the first step (R103) keeps Counter, when the state it would make does. -/
theorem beforeFirstStep_keeps_counter {s t u : State} (h : beforeFirstStep s (.next u) = .next t)
    (hu : u.counter = s.counter) : t.counter = s.counter := by
  obtain rfl := Host.Outcome.next.inj (beforeFirstStep_next h).2
  exact hu

/-- A host's pulse that answers has a natural operand and adds it (R82, R84). -/
theorem hostPulse_counter {s t : State} {n : Int} (h : hostPulse n s = .next t) :
    ∃ k : Nat, n = k ∧ t.counter = Claims.counterPlus s k := by
  obtain ⟨⟨hn, -⟩, rfl⟩ := hostPulse_next h
  exact ⟨n.toNat, (Int.toNat_of_nonneg hn).symm, counterAfterPulse_eq_counterPlus s n.toNat⟩

/-- Settles O47: of the host operations only a reset, a pulse and an executed step write Counter, each the
value stated; a construction makes a new core. -/
theorem counterChangesOnlyByResetAndPulse : Obligations.CounterChangesOnlyByResetAndPulse := by
  intro op s t h
  cases op with
  | construct c d => exact .inr (.inr (.inr (.inr ⟨c, d, rfl⟩)))
  | load addr bytes =>
    obtain rfl := hostLoad_next (beforeFirstStep_next h).2
    exact .inl rfl
  | setPC p => exact .inl (beforeFirstStep_keeps_counter h rfl)
  | setA v => exact .inl (beforeFirstStep_keeps_counter h rfl)
  | setX v => exact .inl (beforeFirstStep_keeps_counter h rfl)
  | setY v => exact .inl (beforeFirstStep_keeps_counter h rfl)
  | step =>
    obtain ⟨c, hrep, hcounter⟩ | hkeep := step_counter_cases h
    · exact .inr (.inr (.inr (.inl ⟨c, rfl, hrep, hcounter⟩)))
    · exact .inl hkeep
  | counterReset =>
    obtain rfl := Host.Outcome.next.inj h
    exact .inr (.inl ⟨rfl, counterReset_counter s⟩)
  | counterPulse n =>
    obtain ⟨k, rfl, hcounter⟩ := hostPulse_counter h
    exact .inr (.inr (.inl ⟨k, rfl, hcounter⟩))

end Sys2Proof.Machine
end

section
/-! The addressing-mode family (spec/42_addressing_modes.md): how far PC moves, and the value of an operand. -/

namespace Sys2Proof.Machine

/-- A sequence of accesses answers when its first one does and the rest does from what that one answered. -/
theorem access_bind_ok {α β : Type} {x : Access α} {f : α → Access β} {r : β}
    (h : (x >>= f) = .ok r) : ∃ v, x = .ok v ∧ f v = .ok r := by
  cases x with
  | error w => cases h
  | ok v => exact ⟨v, rfl, h⟩

/-- A read at PC that answers leaves PC one byte on, and the rest goes on from there (R111). -/
theorem readAtPc_bind_ok {β : Type} {s : State} {f : Byte × State → Access β} {r : β}
    (h : (readAtPc s >>= f) = .ok r) :
    ∃ b, memRead s s.pc = .ok b ∧ f (b, advancePc 1 s) = .ok r := by
  obtain ⟨_, hread, hf⟩ := access_bind_ok h
  obtain ⟨b, hb, hpair⟩ := access_bind_ok hread
  cases hpair
  exact ⟨b, hb, hf⟩

/-- An address moved on is the sum of the values modulo 65536 (R25). -/
theorem add_ofNat_eq_ofNat_toNat_add (a : Addr) (k : Nat) :
    a + BitVec.ofNat 16 k = BitVec.ofNat 16 (a.toNat + k) := by
  rw [BitVec.ofNat_add, BitVec.ofNat_toNat, BitVec.setWidth_eq]

theorem advancePc_advancePc (j k : Nat) (s : State) :
    advancePc j (advancePc k s) = advancePc (k + j) s := by
  simp only [advancePc, BitVec.ofNat_add, BitVec.add_assoc]

/-- A resolution that answers has moved PC past the operand bytes of its mode, column (a) of R110, and
written nothing else (R111, R123). -/
theorem resolve_state {m : AddressMode} {s t : State} {o : Operand} {extra : Nat}
    (h : resolve m s = .ok (o, extra, t)) : t = advancePc m.operandBytes s := by
  cases m with
  | immediate | zeroPage | zeroPageIndexedByX =>
    obtain ⟨b1, -, h⟩ := readAtPc_bind_ok h
    cases h
    rfl
  | absolute | absoluteIndexedByX | absoluteIndexedByY =>
    obtain ⟨lo, -, h⟩ := readAtPc_bind_ok h
    obtain ⟨hi, -, h⟩ := readAtPc_bind_ok h
    cases h
    exact advancePc_advancePc 1 1 s
  | indirectIndexedByX | indirectIndexedByY =>
    obtain ⟨b1, -, h⟩ := readAtPc_bind_ok h
    obtain ⟨lo, -, h⟩ := access_bind_ok h
    obtain ⟨hi, -, h⟩ := access_bind_ok h
    cases h
    rfl

/-- A step that reports Executed is a finished LDA in the mode of the opcode at PC (R93, R97): a fault and an
unrecognized byte report otherwise. -/
theorem step_executed {s t : State} {c : Nat} (h : step s = .next t)
    (hrep : t.report = some (.executed c)) :
    ∃ m v extra, s.config.dispatch.lookup (Claims.byteAt s s.pc) = some ⟨m, .lda⟩ ∧
      t = finishLda m v extra s := by
  obtain ⟨-, ⟨op, m, v, extra, hop, hentry, -, -, rfl⟩ | ⟨w, -, rfl⟩ | ⟨_, -, -, rfl⟩⟩ := step_next_cases h
  · obtain ⟨-, rfl⟩ := (memRead_ok_iff s s.pc op).1 hop
    exact ⟨m, v, extra, hentry, rfl⟩
  · cases hrep
  · cases hrep

/-- Settles O21: the resolver moves PC past the operand bytes of its mode, and an executed step is a finished
LDA, which moves it past the opcode too. -/
theorem pcAdvancesByOpcodeAndOperandWidth : Obligations.PcAdvancesByOpcodeAndOperandWidth := by
  unfold Obligations.PcAdvancesByOpcodeAndOperandWidth
  intro width
  have hwidth : ∀ m, width m = m.operandBytes := by intro m; cases m <;> rfl
  constructor
  · intro m s t o extra h
    rw [resolve_state h, advancePc_pc, hwidth, add_ofNat_eq_ofNat_toNat_add]
  · intro s t c h hrep
    obtain ⟨m, v, extra, hentry, rfl⟩ := step_executed h hrep
    exact ⟨_, hentry, by rw [finishLda_pc, hwidth, add_ofNat_eq_ofNat_toNat_add]⟩

/-- Settles O20: a literal is its own value, and an address is read as every access is (R42). -/
theorem operandValueOfLiteralAndAddress : Obligations.OperandValueOfLiteralAndAddress := by
  intro s
  refine ⟨fun v => rfl, fun ea hin => ?_, fun ea hout hfault => ?_, fun ea _ hwrap => ?_⟩
  · exact (memRead_ok_iff s ea _).2 ⟨.inl hin, by rw [Nat.mod_eq_of_lt hin]⟩
  · exact (memRead_error_iff s ea _).2 ⟨rfl, hout, hfault⟩
  · exact (memRead_ok_iff s ea _).2 ⟨.inr hwrap, rfl⟩

end Sys2Proof.Machine
end

section
/-! The load-accumulator family (spec/43_load_accumulator.md): what an LDA does with its operand byte. -/

namespace Sys2Proof.Machine

/-- `SetZN` by the value of its byte: Z and N, and no other field (R130). -/
theorem setZN_eq_byValue (r : Byte) (s : State) :
    setZN r s =
      { s with z := decide (r.toNat = 0), n := Claims.negativeValue s.config.negativeBit r } := by
  rw [setZN, zeroOf_eq, negativeOf_eq_negativeValue]

/-- Settles O7: the load is `SetZN` of the byte, on the state that has the byte in A. -/
theorem executeLdaWritesAccumulatorAndFlags : Obligations.ExecuteLdaWritesAccumulatorAndFlags := by
  intro v s
  exact setZN_eq_byValue v { s with a := v }

end Sys2Proof.Machine
end

section
/-! The exceptions family (spec/60_exceptions.md): the opcode without an entry. -/

namespace Sys2Proof.Machine

/-- A readable access answers the byte at its address (R42). -/
theorem memRead_of_readable {s : State} {a : Addr} (h : Claims.readable s a) :
    memRead s a = .ok (Claims.byteAt s a) :=
  (memRead_ok_iff s a _).2 ⟨h, rfl⟩

/-- A byte without an entry has no operand: the fetch ends at it (R92, R94). -/
theorem fetchInstr_of_no_entry {s : State} {op : Byte} (hread : memRead s s.pc = .ok op)
    (hentry : s.config.dispatch.lookup op = none) : fetchInstr s = .ok (.unrecognized op) := by
  simp [fetchInstr, bind, Except.bind, hread, hentry]

/-- A core that is not halted runs the instruction it fetched (R98). -/
theorem step_of_fetchInstr {s : State} {i : Instr} (hlatch : s.faultLatch = none)
    (hfetch : fetchInstr s = .ok i) : step s = exec i s := by
  simp only [step, hlatch, hfetch]

/-- An unrecognized byte does exactly what R94 lists. -/
theorem exec_unrecognized (op : Byte) (s : State) :
    exec (.unrecognized op) s = .next (Claims.skipped s) := by
  simp only [exec, execUnrecognized, advancePc, Claims.skipped, add_ofNat_eq_ofNat_toNat_add]

/-- PC stands one byte after the skipped one, also where it wrapped (R25, R151). -/
theorem skipped_pc_sub_one (s : State) : (Claims.skipped s).pc - 1 = s.pc := by
  have hpc : (Claims.skipped s).pc = s.pc + 1 := (add_ofNat_eq_ofNat_toNat_add s.pc 1).symm
  rw [hpc, BitVec.add_sub_cancel]

/-- Settles O27: the fetch ends at the byte without an entry, and running it skips it; the skipped state
keeps the latch and the memory, and its report is not an executed one. -/
theorem unrecognizedOpcodeIsSkipped : Obligations.UnrecognizedOpcodeIsSkipped := by
  intro s hlatch hread hentry
  have hfetch := fetchInstr_of_no_entry (memRead_of_readable hread) hentry
  have hstep : step s = .next (Claims.skipped s) :=
    (step_of_fetchInstr hlatch hfetch).trans (exec_unrecognized _ s)
  refine ⟨hstep, rfl, hlatch, fun c _ => nofun, ?_⟩
  rw [skipped_pc_sub_one]
  rfl

end Sys2Proof.Machine
end

section
/-! The encoding family (spec/30_encoding.md): the decoder and the encoder undo each other, and what the
decoder turns away. -/

namespace Sys2Proof

/-- The operand bytes of an entry, in the order the decoder reads them (R61, R64). -/
def operandsOf (m : AddressMode) (b1 b2 : Byte) : List Byte :=
  if m.operandBytes = 1 then [b1] else [b1, b2]

/-- The instructions are the assembled ones and the unrecognized bytes (R64, R67). -/
theorem instr_eq_instrOf_or_unrecognized (i : Instr) :
    (∃ e b1 b2, i = instrOf e b1 b2) ∨ ∃ op, i = .unrecognized op := by
  have haddr := Machine.addrOfBytes_lowByte_highByte
  cases i with
  | ldaImmediate b => exact .inl ⟨⟨.immediate, .lda⟩, b, 0, rfl⟩
  | ldaZeroPage b => exact .inl ⟨⟨.zeroPage, .lda⟩, b, 0, rfl⟩
  | ldaZeroPageIndexedByX b => exact .inl ⟨⟨.zeroPageIndexedByX, .lda⟩, b, 0, rfl⟩
  | ldaAbsolute a => exact .inl ⟨⟨.absolute, .lda⟩, lowByte a, highByte a, by simp [instrOf, haddr]⟩
  | ldaAbsoluteIndexedByX a =>
    exact .inl ⟨⟨.absoluteIndexedByX, .lda⟩, lowByte a, highByte a, by simp [instrOf, haddr]⟩
  | ldaAbsoluteIndexedByY a =>
    exact .inl ⟨⟨.absoluteIndexedByY, .lda⟩, lowByte a, highByte a, by simp [instrOf, haddr]⟩
  | ldaIndirectIndexedByX b => exact .inl ⟨⟨.indirectIndexedByX, .lda⟩, b, 0, rfl⟩
  | ldaIndirectIndexedByY b => exact .inl ⟨⟨.indirectIndexedByY, .lda⟩, b, 0, rfl⟩
  | unrecognized op => exact .inr ⟨op, rfl⟩

/-- The low byte of an assembled address (R45). -/
theorem lowByte_addrOfBytes (lo hi : Byte) : lowByte (addrOfBytes lo hi) = lo := by
  apply BitVec.eq_of_toNat_eq
  have := lo.isLt
  simp [lowByte, Machine.addrOfBytes_toNat]
  omega

/-- The high byte of an assembled address (R45). -/
theorem highByte_addrOfBytes (lo hi : Byte) : highByte (addrOfBytes lo hi) = hi := by
  apply BitVec.eq_of_toNat_eq
  have := lo.isLt
  rw [Machine.highByte_toNat, Machine.addrOfBytes_toNat]
  omega

/-- A mode has one operand byte or two (R110). -/
theorem operandBytes_eq_one_or_two (m : AddressMode) : m.operandBytes = 1 ∨ m.operandBytes = 2 := by
  cases m <;> decide

@[simp] theorem instrOf_length (e : DispatchEntry) (b1 b2 : Byte) :
    (instrOf e b1 b2).length = 1 + e.mode.operandBytes := by
  obtain ⟨m, ⟨⟩⟩ := e
  cases m <;> rfl

@[simp] theorem instrOf_operands (e : DispatchEntry) (b1 b2 : Byte) :
    (instrOf e b1 b2).operands = operandsOf e.mode b1 b2 := by
  obtain ⟨m, ⟨⟩⟩ := e
  cases m <;>
    simp [instrOf, Instr.operands, operandsOf, AddressMode.operandBytes, lowByte_addrOfBytes,
      highByte_addrOfBytes]

@[simp] theorem instrOf_opcode (t : DispatchTable) (e : DispatchEntry) (b1 b2 : Byte) :
    (instrOf e b1 b2).opcode t = t.opcodeOf e := by
  obtain ⟨m, ⟨⟩⟩ := e
  cases m <;> rfl

@[simp] theorem instrOf_wellFormed (t : DispatchTable) (e : DispatchEntry) (b1 b2 : Byte) :
    (instrOf e b1 b2).wellFormed t = (t.opcodeOf e).isSome := by
  obtain ⟨m, ⟨⟩⟩ := e
  cases m <;> rfl

/-- The second operand byte plays no part where the mode has one (R64). -/
theorem instrOf_of_one_operand {e : DispatchEntry} (h : e.mode.operandBytes = 1) (b1 b2 b2' : Byte) :
    instrOf e b1 b2 = instrOf e b1 b2' := by
  obtain ⟨m, ⟨⟩⟩ := e
  cases m with
  | absolute | absoluteIndexedByX | absoluteIndexedByY => cases h
  | immediate | zeroPage | zeroPageIndexedByX | indirectIndexedByX | indirectIndexedByY => rfl

/-! What the decoder answers, one equation per branch. -/

theorem decode_of_no_entry {t : DispatchTable} {op : Byte} (h : t.lookup op = none) (rest : List Byte) :
    decode t (op :: rest) = .ok (.unrecognized op, rest) := by
  simp only [decode, h]

/-- A bound opcode and its operand bytes decode to the assembled instruction (R64). -/
theorem decode_operandsOf {t : DispatchTable} {op : Byte} {e : DispatchEntry} (h : t.lookup op = some e)
    (b1 b2 : Byte) (rest : List Byte) :
    decode t (op :: (operandsOf e.mode b1 b2 ++ rest)) = .ok (instrOf e b1 b2, rest) := by
  by_cases hw : e.mode.operandBytes = 1
  · simpa [decode, h, operandsOf, hw] using instrOf_of_one_operand hw b1 0 b2
  · simp [decode, h, operandsOf, hw]

/-- A bound opcode with too few bytes after it is turned away (R62). -/
theorem decode_of_short {t : DispatchTable} {op : Byte} {e : DispatchEntry} (h : t.lookup op = some e)
    {rest : List Byte} (hshort : rest.length < e.mode.operandBytes) :
    decode t (op :: rest) = .error (.missingOperand op) := by
  match rest with
  | [] => simp [decode, h]
  | [b1] =>
    have hw : e.mode.operandBytes ≠ 1 := by simp at hshort; omega
    simp [decode, h, hw]
  | b1 :: b2 :: rest =>
    have := operandBytes_eq_one_or_two e.mode
    simp at hshort
    omega

/-- Enough bytes begin with the operand bytes of a mode. -/
theorem exists_operandsOf_append {m : AddressMode} {rest : List Byte} (h : m.operandBytes ≤ rest.length) :
    ∃ b1 b2 rest', rest = operandsOf m b1 b2 ++ rest' := by
  by_cases hw : m.operandBytes = 1
  · obtain ⟨b1, rest', rfl⟩ := List.exists_cons_of_length_pos (l := rest) (by omega)
    exact ⟨b1, 0, rest', by simp [operandsOf, hw]⟩
  · have h2 := (operandBytes_eq_one_or_two m).resolve_left hw
    match rest with
    | [] | [_] => simp at h; omega
    | b1 :: b2 :: rest' => exact ⟨b1, b2, rest', by simp [operandsOf, hw]⟩

theorem operandsOf_length (m : AddressMode) (b1 b2 : Byte) :
    (operandsOf m b1 b2).length = m.operandBytes := by
  cases m <;> rfl

/-- What a decoding can be: an unbound byte on its own, or a bound one with its operand bytes. -/
theorem decode_ok_cases {t : DispatchTable} {bs rest : List Byte} {i : Instr}
    (h : decode t bs = .ok (i, rest)) :
    (∃ op, t.lookup op = none ∧ i = .unrecognized op ∧ bs = op :: rest) ∨
    (∃ op e b1 b2, t.lookup op = some e ∧ i = instrOf e b1 b2 ∧
      bs = op :: (operandsOf e.mode b1 b2 ++ rest)) := by
  cases bs with
  | nil => cases h
  | cons op tail =>
    cases hl : t.lookup op with
    | none =>
      rw [decode_of_no_entry hl] at h
      cases h
      exact .inl ⟨op, hl, rfl, rfl⟩
    | some e =>
      by_cases hshort : tail.length < e.mode.operandBytes
      · rw [decode_of_short hl hshort] at h
        cases h
      · obtain ⟨b1, b2, rest', rfl⟩ := exists_operandsOf_append (Nat.le_of_not_lt hshort)
        rw [decode_operandsOf hl] at h
        cases h
        exact .inr ⟨op, e, b1, b2, hl, rfl, rfl⟩

/-! The dispatch table read in both directions. -/

/-- An opcode that a table with rising bytes binds is not below them. -/
theorem le_of_opcodeOf {t : DispatchTable} {lo : Nat} {e : DispatchEntry} {op : Byte}
    (ht : t.risingFrom lo = true) (h : t.opcodeOf e = some op) : lo ≤ op.toNat := by
  induction t generalizing lo with
  | nil => cases h
  | cons c rest ih =>
    obtain ⟨k, e'⟩ := c
    simp only [DispatchTable.risingFrom, Bool.and_eq_true, decide_eq_true_eq] at ht
    rw [DispatchTable.opcodeOf] at h
    split at h
    · cases h
      exact ht.1
    · have := ih ht.2 h
      omega

/-- In a table with rising bytes the opcode chosen for an entry has that entry (log 12). -/
theorem lookup_of_opcodeOf {t : DispatchTable} {lo : Nat} {e : DispatchEntry} {op : Byte}
    (ht : t.risingFrom lo = true) (h : t.opcodeOf e = some op) : t.lookup op = some e := by
  induction t generalizing lo with
  | nil => cases h
  | cons c rest ih =>
    obtain ⟨k, e'⟩ := c
    simp only [DispatchTable.risingFrom, Bool.and_eq_true, decide_eq_true_eq] at ht
    rw [DispatchTable.opcodeOf] at h
    split at h
    · cases h
      simp [DispatchTable.lookup, *]
    · have hlo := le_of_opcodeOf ht.2 h
      have hne : op ≠ k := by rintro rfl; omega
      rw [DispatchTable.lookup, if_neg hne]
      exact ih ht.2 h

/-- A looked-up entry is one that some opcode is chosen for. -/
theorem opcodeOf_isSome_of_lookup {t : DispatchTable} {e : DispatchEntry} {op : Byte}
    (h : t.lookup op = some e) : (t.opcodeOf e).isSome = true := by
  induction t with
  | nil => cases h
  | cons c rest ih =>
    obtain ⟨k, e'⟩ := c
    rw [DispatchTable.lookup] at h
    rw [DispatchTable.opcodeOf]
    split at h
    · cases h
      simp
    · split
      · rfl
      · exact ih h

/-- The reference table binds no two bytes to one mode (R65). -/
theorem referenceDispatch_opcodeOf_of_lookup (op : Byte) :
    ∀ e ∈ referenceDispatch.lookup op, referenceDispatch.opcodeOf e = some op := by
  revert op; decide

end Sys2Proof

namespace Sys2Proof.Machine

/-- Settles O3: a well-formed instruction is an unbound byte or an assembled one, whose chosen opcode looks
up its own entry in a canonical table. -/
theorem encodedInstructionDecodesBack : Obligations.EncodedInstructionDecodesBack := by
  intro t i ht hi
  obtain ⟨e, b1, b2, rfl⟩ | ⟨op, rfl⟩ := instr_eq_instrOf_or_unrecognized i
  · rw [instrOf_wellFormed] at hi
    obtain ⟨op, hop⟩ := Option.isSome_iff_exists.1 hi
    refine ⟨op :: operandsOf e.mode b1 b2, by simp [encode, hop], ?_, fun rest => ?_⟩
    · rw [instrOf_length, List.length_cons, operandsOf_length, Nat.add_comm]
    · exact decode_operandsOf (lookup_of_opcodeOf ht hop) b1 b2 rest
  · have hnone : t.lookup op = none := Option.isNone_iff_eq_none.1 hi
    exact ⟨[op], by simp [encode, Instr.opcode, Instr.operands, hnone], rfl,
      decode_of_no_entry hnone⟩

/-- Settles O4: the bytes read are the opcode and the operand bytes, and the reference table chooses for an
entry the only byte that has it. -/
theorem decodedInstructionEncodesBack : Obligations.DecodedInstructionEncodesBack := by
  constructor
  · intro t bs rest i h
    obtain ⟨op, hl, rfl, -⟩ | ⟨op, e, b1, b2, hl, rfl, -⟩ := decode_ok_cases h
    · simp [Instr.wellFormed, hl]
    · rw [instrOf_wellFormed, opcodeOf_isSome_of_lookup hl]
  · intro bs rest i h
    obtain ⟨op, hl, rfl, rfl⟩ | ⟨op, e, b1, b2, hl, rfl, rfl⟩ := decode_ok_cases h
    · exact ⟨[op], by simp [encode, Instr.opcode, Instr.operands, hl], rfl⟩
    · have hop := referenceDispatch_opcodeOf_of_lookup op e hl
      exact ⟨op :: operandsOf e.mode b1 b2, by simp [encode, hop], rfl⟩

/-- Settles O5: the entry of the opcode byte gives the operand width, and the input either falls short of it
or begins with the operand bytes. -/
theorem decoderRejectsOnlyShortInput : Obligations.DecoderRejectsOnlyShortInput := by
  intro t op rest length
  refine ⟨rfl, ?_⟩
  cases hl : t.lookup op with
  | none =>
    have hlen : length = 1 := by simp only [length, hl]
    rw [hlen]
    exact ⟨fun h => by simp at h, fun _ => ⟨.unrecognized op, rfl, decode_of_no_entry hl rest⟩⟩
  | some e =>
    have hlen : length = 1 + e.mode.operandBytes := by
      simp only [length, hl]
      cases e.mode <;> rfl
    rw [hlen, List.length_cons]
    refine ⟨fun h => decode_of_short hl (by omega), fun h => ?_⟩
    obtain ⟨b1, b2, rest', rfl⟩ := exists_operandsOf_append (m := e.mode) (rest := rest) (by omega)
    refine ⟨instrOf e b1 b2, instrOf_length e b1 b2, ?_⟩
    rw [decode_operandsOf hl, Nat.add_comm, List.drop_succ_cons,
      List.drop_left' (operandsOf_length e.mode b1 b2)]

/-- Settles O1: a byte has an entry by comparison with the six listed ones, and each word decodes by
evaluation. -/
theorem referenceTableBindsSixOpcodes : Obligations.ReferenceTableBindsSixOpcodes :=
  ⟨by decide, rfl, rfl, rfl, rfl, rfl, rfl, rfl, rfl⟩

/-- An assembled address by its value (R45). -/
theorem addrOfBytes_eq_ofNat (lo hi : Byte) :
    addrOfBytes lo hi = BitVec.ofNat 16 (lo.toNat + 256 * hi.toNat) := by
  rw [← addrOfBytes_toNat, BitVec.ofNat_toNat, BitVec.setWidth_eq]

/-- Settles O2: each mode's operand bytes are those of `operandsOf`, and its instruction the assembled one. -/
theorem operandAssemblyOfEveryMode : Obligations.OperandAssemblyOfEveryMode := by
  intro t op b1 b2 rest
  simp only [← addrOfBytes_eq_ofNat]
  refine ⟨?_, ?_, ?_, ?_, ?_, ?_, ?_, ?_⟩ <;> exact fun h => decode_operandsOf h b1 b2 rest

end Sys2Proof.Machine
end

section
/-! The instructions (spec/42_addressing_modes.md, spec/43_load_accumulator.md): the effective address of each
mode by its value, what an LDA does there, and the frame of every instruction. -/

namespace Sys2Proof.Machine

/-! Addresses by their values. -/

/-- A base and an index added as words (R116, R117). -/
theorem add_zext16_eq_indexed (base : Addr) (index : Byte) :
    base + zext16 index = Claims.indexed base index := by
  rw [Claims.indexed, ← zext16_toNat index, ← add_ofNat_eq_ofNat_toNat_add, BitVec.ofNat_toNat,
    BitVec.setWidth_eq]

theorem indexed_toNat (base : Addr) (index : Byte) :
    (Claims.indexed base index).toNat = (base.toNat + index.toNat) % 65536 := by
  simp [Claims.indexed]

/-- Settles O19: the high byte is the value divided by 256, and adding less than 256 changes it, modulo
65536, exactly when the low byte carries. -/
theorem pageCrossingIsCarryOutOfLowByte : Obligations.PageCrossingIsCarryOutOfLowByte := by
  intro base index
  have hbase := base.isLt
  have hindex := index.isLt
  have hpage : highByte base = highByte (base + zext16 index) ↔
      base.toNat / 256 = (base.toNat + index.toNat) % 65536 / 256 := by
    rw [← BitVec.toNat_inj, highByte_toNat, highByte_toNat, add_zext16_eq_indexed, indexed_toNat]
  rw [crossed, bne, Bool.eq_iff_iff, Bool.not_eq_true', beq_eq_false_iff_ne, decide_eq_true_eq, Ne, hpage]
  omega

/-- An indexed absolute operand by its value (R116 to R118). -/
theorem resolveAbsoluteIndexed_eq (base : Addr) (index : Byte) :
    resolveAbsoluteIndexed base index =
      ⟨.address (Claims.indexed base index), Claims.crossingCycle base index⟩ := by
  have hcross := pageCrossingIsCarryOutOfLowByte base index
  rw [add_zext16_eq_indexed] at hcross
  simp only [resolveAbsoluteIndexed, add_zext16_eq_indexed, hcross, Claims.crossingCycle,
    decide_eq_true_eq]

section ZeroPage
variable {s : State} (hmem : 256 ≤ s.config.memSize)
include hmem

/-- The zero page is in memory (R7). -/
theorem readable_zext16 (b : Byte) : Claims.readable s (zext16 b) := by
  have := b.isLt
  exact .inl (by rw [zext16_toNat]; omega)

theorem byteAt_zext16 (b : Byte) : Claims.byteAt s (zext16 b) = Memory.read s.mem b.toNat := by
  have := b.isLt
  rw [Claims.byteAt, zext16_toNat, Nat.mod_eq_of_lt (by omega)]

/-- A pointer read from the zero page always answers, and assembles the two bytes there (R119, R120). -/
theorem readPointer_eq (p : Byte) : readPointer s p = .ok (Claims.zeroPagePointer s p.toNat) := by
  have hp : p.toNat % 256 = p.toNat := Nat.mod_eq_of_lt p.isLt
  have hnext : (p + 1).toNat = (p.toNat + 1) % 256 := BitVec.toNat_add p 1
  simp only [readPointer, bind, Except.bind, memRead_of_readable (readable_zext16 hmem _),
    byteAt_zext16 hmem, addrOfBytes_eq_ofNat, Claims.zeroPagePointer, hp, hnext]

end ZeroPage

/-- A pointer's address wraps inside the zero page (R119). -/
theorem zeroPagePointer_toNat_add (s : State) (b index : Byte) :
    Claims.zeroPagePointer s (b + index).toNat = Claims.zeroPagePointer s (b.toNat + index.toNat) := by
  have hnext : ((b.toNat + index.toNat) % 256 + 1) % 256 = (b.toNat + index.toNat + 1) % 256 := by omega
  simp only [Claims.zeroPagePointer, BitVec.toNat_add, Nat.reducePow, Nat.mod_mod, hnext]

/-! What an LDA does at its effective address. -/

/-- Settles O6: the flag-update function by the value of its byte. -/
theorem setZnWritesZeroAndNegative : Obligations.SetZnWritesZeroAndNegative :=
  ⟨setZN_eq_byValue, rfl⟩

/-- The end of an LDA, field by field (R97, R131). -/
theorem finishLda_eq_loaded (m : AddressMode) (v : Byte) (extra : Nat) (s : State) :
    finishLda m v extra s =
      Claims.loaded s v (1 + m.operandBytes) (s.config.baseCost.cost m + extra) := by
  simp only [finishLda, executeLdaWritesAccumulatorAndFlags v s, reportExecuted, pulse, advancePc,
    counterAfterPulse_eq_counterPlus, add_ofNat_eq_ofNat_toNat_add, Claims.loaded, Claims.counterPlus]

/-- An unreadable access raises its own address (R42, R152). -/
theorem memRead_of_not_readable {s : State} {a : Addr} (h : ¬ Claims.readable s a) :
    memRead s a = .error ⟨a⟩ := by
  obtain ⟨hout, hwrap⟩ := not_or.1 h
  refine (memRead_error_iff s a _).2 ⟨rfl, Nat.le_of_not_lt hout, ?_⟩
  cases hp : s.config.oorPolicy with
  | fault => rfl
  | wrap => exact absurd hp hwrap

theorem not_readable {s : State} {a : Addr} (hpolicy : s.config.oorPolicy = .fault)
    (hout : s.config.memSize ≤ a.toNat) : ¬ Claims.readable s a := by
  rintro (hin | hwrap)
  · omega
  · rw [hpolicy] at hwrap
    cases hwrap

/-- The taken fault is the spec's, with the free value as its PC (R152; log 3). -/
theorem takeFault_faultTakenAt (s : State) (a : Addr) :
    Claims.faultTakenAt s a (takeFault ⟨a⟩ s) :=
  ⟨_, rfl⟩

/-- An LDA whose effective address is readable loads the byte there. -/
theorem loadAccumulator_of_readable {s : State} {ea : Addr} (m : AddressMode) (extra : Nat)
    (h : Claims.readable s ea) :
    loadAccumulator m (.ok ⟨.address ea, extra⟩) s =
      .next (Claims.loaded s (Claims.byteAt s ea) (1 + m.operandBytes)
        (s.config.baseCost.cost m + extra)) := by
  simp only [loadAccumulator, operandValue, memRead_of_readable h, finishLda_eq_loaded]

/-- An LDA whose effective address is out of range takes the fault there (R152). -/
theorem loadAccumulator_takes_fault {s : State} {ea : Addr} (m : AddressMode) (extra : Nat)
    (h : ¬ Claims.readable s ea) :
    ∃ t, loadAccumulator m (.ok ⟨.address ea, extra⟩) s = .next t ∧ Claims.faultTakenAt s ea t :=
  ⟨takeFault ⟨ea⟩ s, by simp only [loadAccumulator, operandValue, memRead_of_not_readable h],
    takeFault_faultTakenAt s ea⟩

/-! Each form as an LDA at its effective address, by value. -/

theorem exec_ldaAbsolute (addr : Addr) (s : State) :
    exec (.ldaAbsolute addr) s = loadAccumulator .absolute (.ok ⟨.address addr, 0⟩) s :=
  rfl

theorem exec_ldaAbsoluteIndexedByX (base : Addr) (s : State) :
    exec (.ldaAbsoluteIndexedByX base) s =
      loadAccumulator .absoluteIndexedByX
        (.ok ⟨.address (Claims.indexed base s.x), Claims.crossingCycle base s.x⟩) s := by
  rw [← resolveAbsoluteIndexed_eq]
  rfl

theorem exec_ldaAbsoluteIndexedByY (base : Addr) (s : State) :
    exec (.ldaAbsoluteIndexedByY base) s =
      loadAccumulator .absoluteIndexedByY
        (.ok ⟨.address (Claims.indexed base s.y), Claims.crossingCycle base s.y⟩) s := by
  rw [← resolveAbsoluteIndexed_eq]
  rfl

theorem exec_ldaIndirectIndexedByX {s : State} (hmem : 256 ≤ s.config.memSize) (zz : Byte) :
    exec (.ldaIndirectIndexedByX zz) s =
      loadAccumulator .indirectIndexedByX
        (.ok ⟨.address (Claims.zeroPagePointer s (zz.toNat + s.x.toNat)), 0⟩) s := by
  simp only [exec, execLdaIndirectIndexedByX, resolveIndirectIndexedByX, readPointer_eq hmem, bind,
    Except.bind, zeroPagePointer_toNat_add]

theorem exec_ldaIndirectIndexedByY {s : State} (hmem : 256 ≤ s.config.memSize) (zz : Byte) :
    exec (.ldaIndirectIndexedByY zz) s =
      loadAccumulator .indirectIndexedByY
        (.ok ⟨.address (Claims.indexed (Claims.zeroPagePointer s zz.toNat) s.y),
          Claims.crossingCycle (Claims.zeroPagePointer s zz.toNat) s.y⟩) s := by
  simp only [exec, execLdaIndirectIndexedByY, resolveIndirectIndexedByY, readPointer_eq hmem, bind,
    Except.bind, resolveAbsoluteIndexed_eq]

/-- Settles O8: a literal is its own value. -/
theorem ldaImmediateLoadsLiteral : Obligations.LdaImmediateLoadsLiteral := by
  intro imm s
  exact congrArg Host.Outcome.next (finishLda_eq_loaded .immediate imm 0 s)

/-- Settles O9: the zero page is in memory. -/
theorem ldaZeroPageLoadsByte : Obligations.LdaZeroPageLoadsByte := by
  intro zz s hmem
  rw [← byteAt_zext16 hmem]
  exact loadAccumulator_of_readable .zeroPage 0 (readable_zext16 hmem zz)

/-- Settles O10: the sum of two bytes stays in the zero page. -/
theorem ldaZeroPageIndexedWrapsInZeroPage : Obligations.LdaZeroPageIndexedWrapsInZeroPage := by
  intro zz s hmem
  have hsum : (zz + s.x).toNat = (zz.toNat + s.x.toNat) % 256 := BitVec.toNat_add zz s.x
  rw [← hsum, ← byteAt_zext16 hmem]
  exact loadAccumulator_of_readable .zeroPageIndexedByX 0 (readable_zext16 hmem (zz + s.x))

/-- Settles O11: the operand is the effective address, and it is readable. -/
theorem ldaAbsoluteLoadsByte : Obligations.LdaAbsoluteLoadsByte :=
  fun _ _ h => loadAccumulator_of_readable .absolute 0 h

/-- Settles O12: the effective address and the crossing by value, then the load there. -/
theorem ldaAbsoluteIndexedByXLoadsByte : Obligations.LdaAbsoluteIndexedByXLoadsByte := by
  intro base s h
  rw [exec_ldaAbsoluteIndexedByX]
  exact loadAccumulator_of_readable .absoluteIndexedByX _ h

/-- Settles O13: as O12 with Y. -/
theorem ldaAbsoluteIndexedByYLoadsByte : Obligations.LdaAbsoluteIndexedByYLoadsByte := by
  intro base s h
  rw [exec_ldaAbsoluteIndexedByY]
  exact loadAccumulator_of_readable .absoluteIndexedByY _ h

/-- Settles O14: the pointer always answers, then the load is at its target. -/
theorem ldaIndirectIndexedByXLoadsByte : Obligations.LdaIndirectIndexedByXLoadsByte := by
  intro zz s hmem h
  rw [exec_ldaIndirectIndexedByX hmem]
  exact loadAccumulator_of_readable .indirectIndexedByX 0 h

/-- Settles O15: the pointer always answers, then the load is at its target plus Y. -/
theorem ldaIndirectIndexedByYLoadsByte : Obligations.LdaIndirectIndexedByYLoadsByte := by
  intro zz s hmem h
  rw [exec_ldaIndirectIndexedByY hmem]
  exact loadAccumulator_of_readable .indirectIndexedByY _ h

/-- Settles O16: the default row, by value of the new PC. -/
theorem unrecognizedByteAdvancesPcOnly : Obligations.UnrecognizedByteAdvancesPcOnly :=
  exec_unrecognized

/-- Settles O17: in each of the five forms the one data read is at the effective address, and it raises. -/
theorem outOfRangeDataReadTakesFault : Obligations.OutOfRangeDataReadTakesFault := by
  intro s hpolicy
  refine ⟨fun addr hout => ?_, fun base hout => ?_, fun base hout => ?_, fun zz hmem hout => ?_,
    fun zz hmem hout => ?_⟩
  · exact loadAccumulator_takes_fault .absolute 0 (not_readable hpolicy hout)
  · rw [exec_ldaAbsoluteIndexedByX]
    exact loadAccumulator_takes_fault _ _ (not_readable hpolicy hout)
  · rw [exec_ldaAbsoluteIndexedByY]
    exact loadAccumulator_takes_fault _ _ (not_readable hpolicy hout)
  · rw [exec_ldaIndirectIndexedByX hmem]
    exact loadAccumulator_takes_fault _ _ (not_readable hpolicy hout)
  · rw [exec_ldaIndirectIndexedByY hmem]
    exact loadAccumulator_takes_fault _ _ (not_readable hpolicy hout)

/-- Settles O18: an instruction finishes an LDA, takes a fault or skips a byte, and each of the three ends is
read field by field. -/
theorem instructionFrame : Obligations.InstructionFrame := by
  intro i s
  obtain ⟨m, v, extra, -, -, -, ht⟩ | ⟨w, -, ht⟩ | ⟨-, ht⟩ := exec_cases i s <;>
    exact ⟨_, ht, by simp⟩

end Sys2Proof.Machine
end

section
/-! The step (spec/41_step.md, spec/60_exceptions.md): what it fetches, its equality with the pseudocode, and its
outcomes. -/

namespace Sys2Proof.Machine

/-! ## Operand bytes and their resolution

`exec` resolves a decoded instruction and `resolve` reads the operand bytes itself; both are the operand bytes
at PC, then one resolution of them. -/

/-- The operand bytes of a mode, read from PC on; a mode of one byte leaves the second 0. -/
def readOperands (m : AddressMode) (s : State) : Access (Byte × Byte) := do
  let b1 ← memRead s s.pc
  if m.operandBytes = 1 then .ok (b1, 0)
  else
    let b2 ← memRead s (s.pc + 1)
    .ok (b1, b2)

/-- The resolution of a mode from its operand bytes. -/
def resolutionOf (m : AddressMode) (b1 b2 : Byte) (s : State) : Access Resolution :=
  match m with
  | .immediate => .ok (resolveImmediate b1)
  | .zeroPage => .ok (resolveZeroPage b1)
  | .zeroPageIndexedByX => .ok (resolveZeroPageIndexed b1 s.x)
  | .absolute => .ok (resolveAbsolute (addrOfBytes b1 b2))
  | .absoluteIndexedByX => .ok (resolveAbsoluteIndexed (addrOfBytes b1 b2) s.x)
  | .absoluteIndexedByY => .ok (resolveAbsoluteIndexed (addrOfBytes b1 b2) s.y)
  | .indirectIndexedByX => resolveIndirectIndexedByX s b1
  | .indirectIndexedByY => resolveIndirectIndexedByY s b1

/-- The resolution does not look at PC (R111). -/
@[simp] theorem resolutionOf_advancePc (m : AddressMode) (b1 b2 : Byte) (k : Nat) (s : State) :
    resolutionOf m b1 b2 (advancePc k s) = resolutionOf m b1 b2 s := by
  cases m <;> rfl

@[simp] theorem memRead_advancePc (k : Nat) (s : State) (a : Addr) :
    memRead (advancePc k s) a = memRead s a :=
  rfl

@[simp] theorem operandValue_advancePc (k : Nat) (s : State) (o : Operand) :
    operandValue (advancePc k s) o = operandValue s o := by
  cases o <;> rfl

/-- An assembled instruction is an LDA from the resolution of its operand bytes. -/
theorem exec_instrOf (e : DispatchEntry) (b1 b2 : Byte) (s : State) :
    exec (instrOf e b1 b2) s = loadAccumulator e.mode (resolutionOf e.mode b1 b2 s) s := by
  obtain ⟨m, ⟨⟩⟩ := e
  cases m <;> rfl

/-- What each resolution answers: at most one extra cycle, none where a page cannot be crossed, and a literal
in Immediate only (column (d) of R110, R111). -/
theorem resolutionOf_ok {m : AddressMode} {b1 b2 : Byte} {s : State} {r : Resolution}
    (h : resolutionOf m b1 b2 s = .ok r) :
    r.extra ≤ 1 ∧ (chargesCrossing m = false → r.extra = 0) ∧
      ((∃ v, r.operand = .literal v) ↔ m = .immediate) := by
  cases m with
  | immediate => cases h; exact ⟨Nat.zero_le 1, fun _ => rfl, by simp [resolveImmediate]⟩
  | zeroPage => cases h; exact ⟨Nat.zero_le 1, fun _ => rfl, by simp [resolveZeroPage]⟩
  | zeroPageIndexedByX => cases h; exact ⟨Nat.zero_le 1, fun _ => rfl, by simp [resolveZeroPageIndexed]⟩
  | absolute => cases h; exact ⟨Nat.zero_le 1, fun _ => rfl, by simp [resolveAbsolute]⟩
  | absoluteIndexedByX | absoluteIndexedByY =>
    cases h
    exact ⟨resolveAbsoluteIndexed_extra_le _ _, nofun, by simp [resolveAbsoluteIndexed]⟩
  | indirectIndexedByX =>
    obtain ⟨ea, -, h⟩ := access_bind_ok h
    cases h
    exact ⟨Nat.zero_le 1, fun _ => rfl, by simp⟩
  | indirectIndexedByY =>
    obtain ⟨base, -, h⟩ := access_bind_ok h
    cases h
    exact ⟨resolveAbsoluteIndexed_extra_le _ _, nofun, by simp [resolveAbsoluteIndexed]⟩

/-! The pseudocode's arithmetic on numbers is the model's on words. -/

theorem setWidth_eq_zext16 (b : Byte) : b.setWidth 16 = zext16 b := rfl

theorem shiftLeft_or_eq_addrOfBytes (lo hi : Byte) :
    zext16 hi <<< 8 ||| zext16 lo = addrOfBytes lo hi := by
  rw [addrOfBytes, BitVec.append_def, BitVec.shiftLeftZeroExtend_eq, BitVec.setWidth'_eq]
  rfl

theorem ofNat_mod_256_eq_zext16 (b c : Byte) :
    BitVec.ofNat 16 ((b.toNat + c.toNat) % 256) = zext16 (b + c) := by
  apply BitVec.eq_of_toNat_eq
  rw [zext16_toNat, BitVec.toNat_add, BitVec.toNat_ofNat]
  omega

theorem ofNat_succ_mod_256_eq_zext16 (b : Byte) :
    BitVec.ofNat 16 ((b.toNat + 1) % 256) = zext16 (b + 1) :=
  ofNat_mod_256_eq_zext16 b 1

theorem ofNat_mod_succ_mod_256_eq_zext16 (b c : Byte) :
    BitVec.ofNat 16 (((b.toNat + c.toNat) % 256 + 1) % 256) = zext16 (b + c + 1) :=
  BitVec.toNat_add b c ▸ ofNat_succ_mod_256_eq_zext16 (b + c)

theorem ofNat_mod_65536_eq_add (base : Addr) (index : Byte) :
    BitVec.ofNat 16 ((base.toNat + index.toNat) % 65536) = base + zext16 index := by
  apply BitVec.eq_of_toNat_eq
  rw [add_zext16_eq_indexed, indexed_toNat, BitVec.toNat_ofNat]
  omega

theorem page_ne_cycle_eq_crossed_cycle (base ea : Addr) :
    (if base.toNat / 256 ≠ ea.toNat / 256 then 1 else 0) = if crossed base ea then 1 else 0 := by
  refine if_congr ?_ rfl rfl
  rw [← highByte_toNat, ← highByte_toNat, crossed, bne_iff_ne, Ne, BitVec.toNat_inj]

/-- A read at PC, then the rest from PC moved past it. -/
theorem readAtPc_bind {β : Type} (s : State) (f : Byte × State → Access β) :
    (readAtPc s >>= f) = (memRead s s.pc >>= fun b => f (b, advancePc 1 s)) := by
  rw [readAtPc, bind_assoc]
  rfl

theorem advancePc_one_pc (s : State) : (advancePc 1 s).pc = s.pc + 1 := rfl

theorem ok_bind {α β : Type} (v : α) (f : α → Access β) : ((Except.ok v : Access α) >>= f) = f v := rfl

theorem error_bind {α β : Type} (w : OutOfRange) (f : α → Access β) :
    ((Except.error w : Access α) >>= f) = .error w := rfl

/-- The pseudocode's resolver reads the operand bytes at PC, resolves them, and leaves PC past them. -/
theorem resolve_eq (m : AddressMode) (s : State) :
    resolve m s =
      (do let b ← readOperands m s
          let r ← resolutionOf m b.1 b.2 s
          .ok (r.operand, r.extra, advancePc m.operandBytes s)) := by
  cases m with
  | immediate | zeroPage | zeroPageIndexedByX =>
    simp only [resolve, readAtPc_bind, readOperands, AddressMode.operandBytes, if_true, bind_assoc,
      ok_bind, resolutionOf, resolveImmediate, resolveZeroPage, resolveZeroPageIndexed,
      ofNat_mod_256_eq_zext16, setWidth_eq_zext16, advancePc_x]
  | absolute =>
    simp only [resolve, readAtPc_bind, readOperands, AddressMode.operandBytes, OfNat.ofNat_ne_one,
      if_false, bind_assoc, ok_bind, resolutionOf, resolveAbsolute, setWidth_eq_zext16,
      shiftLeft_or_eq_addrOfBytes, memRead_advancePc, advancePc_one_pc, advancePc_advancePc, Nat.reduceAdd]
  | absoluteIndexedByX | absoluteIndexedByY =>
    simp only [resolve, readAtPc_bind, readOperands, AddressMode.operandBytes, OfNat.ofNat_ne_one,
      if_false, bind_assoc, ok_bind, resolutionOf, resolveAbsoluteIndexed, ofNat_mod_65536_eq_add,
      page_ne_cycle_eq_crossed_cycle, setWidth_eq_zext16, shiftLeft_or_eq_addrOfBytes, memRead_advancePc,
      advancePc_one_pc, advancePc_advancePc, Nat.reduceAdd, advancePc_x, advancePc_y]
    rfl
  | indirectIndexedByX =>
    simp only [resolve, readAtPc_bind, readOperands, AddressMode.operandBytes, if_true, bind_assoc,
      ok_bind, resolutionOf, resolveIndirectIndexedByX, readPointer, setWidth_eq_zext16,
      shiftLeft_or_eq_addrOfBytes, ofNat_mod_256_eq_zext16, ofNat_mod_succ_mod_256_eq_zext16,
      memRead_advancePc, advancePc_x]
  | indirectIndexedByY =>
    simp only [resolve, readAtPc_bind, readOperands, AddressMode.operandBytes, if_true, bind_assoc,
      ok_bind, resolutionOf, resolveIndirectIndexedByY, readPointer, resolveAbsoluteIndexed,
      ofNat_mod_65536_eq_add, page_ne_cycle_eq_crossed_cycle, setWidth_eq_zext16,
      shiftLeft_or_eq_addrOfBytes, ofNat_succ_mod_256_eq_zext16, memRead_advancePc, advancePc_y]
    rfl

/-- Settles O22: the state left is PC moved on, and the rest is what a resolution answers. -/
theorem resolverWritesOnlyPc : Obligations.ResolverWritesOnlyPc := by
  intro m s t o extra h
  have ht := resolve_state h
  rw [resolve_eq] at h
  obtain ⟨⟨b1, b2⟩, -, h⟩ := access_bind_ok h
  obtain ⟨r, hr, h⟩ := access_bind_ok h
  cases h
  exact ⟨by rw [ht]; rfl, resolutionOf_ok hr⟩

/-! ## The fetch -/

/-- A bound opcode's operand bytes are read after it, and the instruction assembled from them (R93). -/
theorem fetchInstr_of_entry {s : State} {op : Byte} {e : DispatchEntry} (hread : memRead s s.pc = .ok op)
    (hentry : s.config.dispatch.lookup op = some e) :
    fetchInstr s = (readOperands e.mode (advancePc 1 s) >>= fun b => .ok (instrOf e b.1 b.2)) := by
  have hpc : s.pc + 1 + 1 = s.pc + 2 := BitVec.add_assoc s.pc 1 1
  simp only [fetchInstr, hread, hentry, ok_bind, readOperands, bind_assoc, memRead_advancePc,
    advancePc_one_pc, hpc]
  split <;> simp only [bind_assoc, ok_bind]

/-- The pseudocode's statements after the opcode read, for a bound opcode: the resolution of the operand bytes,
the operand value, and the end of an LDA. -/
theorem stepBody_of_entry {s : State} {op : Byte} {e : DispatchEntry} (hread : memRead s s.pc = .ok op)
    (hentry : s.config.dispatch.lookup op = some e) :
    stepBody s =
      (do let b ← readOperands e.mode (advancePc 1 s)
          let r ← resolutionOf e.mode b.1 b.2 s
          let v ← operandValue s r.operand
          .ok (finishLda e.mode v r.extra s)) := by
  simp only [stepBody, readAtPc_bind, hread, ok_bind, advancePc_config, hentry, resolve_eq, bind_assoc,
    resolutionOf_advancePc, operandValue_advancePc, advancePc_advancePc]
  rfl

/-- Settles O32: after the halt test both sides read the opcode; an unbound one is skipped by both, and of a
bound one both read the same operand bytes, resolve them alike and read the same operand value. -/
theorem stepIsThePseudocodeStep : Obligations.StepIsThePseudocodeStep := by
  intro s
  cases hlatch : s.faultLatch with
  | some w => simp only [step, stepPseudocode, hlatch]
  | none =>
    simp only [step, stepPseudocode, hlatch]
    cases hread : memRead s s.pc with
    | error w => simp only [fetchInstr, stepBody, readAtPc_bind, hread, error_bind]
    | ok op =>
      cases hentry : s.config.dispatch.lookup op with
      | none =>
        simp only [fetchInstr_of_no_entry hread hentry, stepBody, readAtPc_bind, hread, ok_bind,
          advancePc_config, hentry]
        rfl
      | some e =>
        rw [fetchInstr_of_entry hread hentry, stepBody_of_entry hread hentry]
        cases hops : readOperands e.mode (advancePc 1 s) with
        | error w => rfl
        | ok b =>
          simp only [ok_bind, exec_instrOf]
          cases hres : resolutionOf e.mode b.1 b.2 s with
          | error w => rfl
          | ok r =>
            simp only [ok_bind, loadAccumulator]
            cases hval : operandValue s r.operand with
            | error w => rfl
            | ok v => rfl

/-! ## The instruction at PC -/

/-- The address after PC, and after that (R25). -/
theorem pc_add_one_eq_afterPc (s : State) : s.pc + 1 = Claims.afterPc s 1 :=
  add_ofNat_eq_ofNat_toNat_add s.pc 1

theorem pc_add_two_eq_afterPc (s : State) : s.pc + 1 + 1 = Claims.afterPc s 2 :=
  (BitVec.add_assoc s.pc 1 1).trans (add_ofNat_eq_ofNat_toNat_add s.pc 2)

theorem afterPc_zero (s : State) : Claims.afterPc s 0 = s.pc := by
  simp [Claims.afterPc]

/-- Operand bytes that are read as listed give their instruction. -/
theorem readOperands_of_bytes {m : AddressMode} {s : State} {b1 b2 : Byte}
    (h1 : memRead s (s.pc + 1) = .ok b1)
    (h2 : m.operandBytes ≠ 1 → memRead s (s.pc + 1 + 1) = .ok b2) :
    readOperands m (advancePc 1 s) = .ok (b1, if m.operandBytes = 1 then 0 else b2) := by
  simp only [readOperands, memRead_advancePc, advancePc_one_pc, h1, ok_bind]
  split
  · rfl
  · rw [h2 ‹_›]
    rfl

/-- When the bytes from PC on decode, the fetch reads the same instruction. -/
theorem fetchInstr_of_decode {s : State} {bs rest : List Byte} {i : Instr}
    (hread : ∀ j b, bs[j]? = some b → memRead s (Claims.afterPc s j) = .ok b)
    (hdecode : decode s.config.dispatch bs = .ok (i, rest)) : fetchInstr s = .ok i := by
  obtain ⟨op, hentry, rfl, rfl⟩ | ⟨op, e, b1, b2, hentry, rfl, rfl⟩ := decode_ok_cases hdecode
  · have hop := hread 0 op rfl
    rw [afterPc_zero] at hop
    exact fetchInstr_of_no_entry hop hentry
  · have hop := hread 0 op rfl
    rw [afterPc_zero] at hop
    have h1 : memRead s (s.pc + 1) = .ok b1 := by
      rw [pc_add_one_eq_afterPc]
      exact hread 1 b1 (by simp only [operandsOf]; split <;> rfl)
    have h2 : e.mode.operandBytes ≠ 1 → memRead s (s.pc + 1 + 1) = .ok b2 := by
      intro hw
      rw [pc_add_two_eq_afterPc]
      exact hread 2 b2 (by simp [operandsOf, hw])
    rw [fetchInstr_of_entry hop hentry, readOperands_of_bytes h1 h2, ok_bind]
    split
    · rw [instrOf_of_one_operand ‹_› b1 b2 0]
    · rfl

/-- Settles O23: the listed bytes are those the fetch reads, and a core that is not halted runs what it
fetched. -/
theorem stepRunsDecodedInstruction : Obligations.StepRunsDecodedInstruction := by
  intro s k i hlatch hreadable hdecode
  refine step_of_fetchInstr hlatch (fetchInstr_of_decode (fun j b hb => ?_) hdecode)
  obtain ⟨hj, rfl⟩ := List.getElem?_eq_some_iff.1 hb
  have hjk : j < k := by simpa [Claims.bytesFromPc] using hj
  simpa [Claims.bytesFromPc] using memRead_of_readable (hreadable j hjk)

/-- A fetch that raises takes the fault at the address it raises. -/
theorem step_takes_fault {s : State} {a : Addr} (hlatch : s.faultLatch = none)
    (hfetch : fetchInstr s = .error ⟨a⟩) : ∃ t, step s = .next t ∧ Claims.faultTakenAt s a t :=
  ⟨takeFault ⟨a⟩ s, by simp only [step, hlatch, hfetch], takeFault_faultTakenAt s a⟩

/-- Settles O24: the bytes of an instruction are read in address order, so the first unreadable one raises,
and it raises its own address. -/
theorem stepFaultsAtFirstUnreadableByte : Obligations.StepFaultsAtFirstUnreadableByte := by
  intro s hlatch
  refine ⟨fun h0 => ?_, fun e h0 hentry h1 => ?_, fun e h0 hentry hmode h1 h2 => ?_⟩
  · exact step_takes_fault hlatch (by simp only [fetchInstr, memRead_of_not_readable h0, error_bind])
  · refine step_takes_fault hlatch ?_
    rw [← pc_add_one_eq_afterPc] at h1 ⊢
    simp only [fetchInstr_of_entry (memRead_of_readable h0) hentry, readOperands, memRead_advancePc,
      advancePc_one_pc, memRead_of_not_readable h1, error_bind]
  · refine step_takes_fault hlatch ?_
    have hw : e.mode.operandBytes ≠ 1 := by
      rcases hmode with h | h | h <;> rw [h] <;> decide
    rw [← pc_add_one_eq_afterPc] at h1
    rw [← pc_add_two_eq_afterPc] at h2 ⊢
    simp only [fetchInstr_of_entry (memRead_of_readable h0) hentry, readOperands, memRead_advancePc,
      advancePc_one_pc, memRead_of_readable h1, memRead_of_not_readable h2, ok_bind, error_bind, if_neg hw]

/-- A step of a readable opcode of one operand byte, that byte readable too. -/
theorem step_of_one_operand {s : State} {e : DispatchEntry} (hlatch : s.faultLatch = none)
    (h0 : Claims.readable s s.pc) (hentry : s.config.dispatch.lookup (Claims.byteAt s s.pc) = some e)
    (hw : e.mode.operandBytes = 1) (h1 : Claims.readable s (Claims.afterPc s 1)) :
    step s = exec (instrOf e (Claims.byteAt s (Claims.afterPc s 1)) 0) s := by
  refine step_of_fetchInstr hlatch ?_
  rw [← pc_add_one_eq_afterPc] at h1 ⊢
  rw [fetchInstr_of_entry (memRead_of_readable h0) hentry,
    readOperands_of_bytes (b2 := 0) (memRead_of_readable h1) (fun h => absurd hw h), ok_bind, if_pos hw]

/-- Settles O25: the two fetch faults are those of any instruction, and with both bytes readable the step is
the immediate load of the second. -/
theorem stepOfLdaImmediate : Obligations.StepOfLdaImmediate := by
  intro s hlatch htable
  obtain ⟨hfault0, hfault1, -⟩ := stepFaultsAtFirstUnreadableByte s hlatch
  refine ⟨hfault0, fun h0 hop => ?_⟩
  have hentry : s.config.dispatch.lookup (Claims.byteAt s s.pc) = some ⟨.immediate, .lda⟩ := by
    rw [htable, hop]
    rfl
  have hload (h1 : Claims.readable s (Claims.afterPc s 1)) :
      step s = .next (Claims.loaded s (Claims.byteAt s (Claims.afterPc s 1)) 2
        s.config.baseCost.immediate) :=
    (step_of_one_operand hlatch h0 hentry rfl h1).trans (ldaImmediateLoadsLiteral _ s)
  exact ⟨hfault1 _ h0 hentry, hload, fun h1 hcost => ⟨_, hload h1, by rw [hcost]; rfl⟩⟩

/-- Settles O26: as O25, with the zero-page load of the byte at the operand. -/
theorem stepOfLdaZeroPage : Obligations.StepOfLdaZeroPage := by
  intro s hlatch htable hmem
  obtain ⟨hfault0, hfault1, -⟩ := stepFaultsAtFirstUnreadableByte s hlatch
  refine ⟨hfault0, fun h0 hop => ?_⟩
  have hentry : s.config.dispatch.lookup (Claims.byteAt s s.pc) = some ⟨.zeroPage, .lda⟩ := by
    rw [htable, hop]
    rfl
  have hload (h1 : Claims.readable s (Claims.afterPc s 1)) :
      step s = .next (Claims.loaded s (Memory.read s.mem (Claims.byteAt s (Claims.afterPc s 1)).toNat) 2
        s.config.baseCost.zeroPage) :=
    (step_of_one_operand hlatch h0 hentry rfl h1).trans (ldaZeroPageLoadsByte _ s hmem)
  exact ⟨hfault1 _ h0 hentry, hload, fun h1 hcost => ⟨_, hload h1, by rw [hcost]; rfl⟩⟩

end Sys2Proof.Machine
end

section
/-! Outcomes, runs and the invariant (spec/41_step.md, spec/60_exceptions.md, spec/70_reset_and_hazards.md). -/

namespace Sys2Proof.Machine

/-! ## The outcomes of a step -/

/-- A host operation other than a step and a construction leaves the latch alone (R102, R157). -/
theorem hostOp_keeps_faultLatch {op : HostOp} {s t : State} (hstep : op ≠ .step)
    (hcons : ∀ c d, op ≠ .construct c d) (h : hostOp op s = .next t) : t.faultLatch = s.faultLatch := by
  cases op with
  | construct c d => exact absurd rfl (hcons c d)
  | step => exact absurd rfl hstep
  | load addr bytes =>
    obtain rfl := hostLoad_next (beforeFirstStep_next h).2
    rfl
  | setPC v | setA v | setX v | setY v => cases (beforeFirstStep_next h).2; rfl
  | counterReset => cases h; rfl
  | counterPulse n =>
    obtain ⟨-, rfl⟩ := hostPulse_next h
    rfl

theorem step_of_halted {s : State} {w : OutOfRange} (h : s.faultLatch = some w) :
    step s = .fault (.halted w) := by
  simp only [step, h]

/-- A construction that answers had legal parameters, and its state is the constructed one (R37). -/
theorem hostOp_construct_next {c : Config} {d : Draws} {s t : State}
    (h : hostOp (.construct c d) s = .next t) : c.legal = true ∧ t = State.construct c d := by
  simp only [hostOp] at h
  split at h
  · exact ⟨‹_›, (Host.Outcome.next.inj h).symm⟩
  · cases h

/-- Settles O28: a halted core has no step, a construction makes a new core, and the other operations leave the
latch alone. -/
theorem onlyConstructionOpensTheLatch : Obligations.OnlyConstructionOpensTheLatch := by
  intro s w hlatch
  refine ⟨step_of_halted hlatch, fun op t h => ?_⟩
  by_cases hcons : ∃ c d, op = .construct c d
  · obtain ⟨c, d, rfl⟩ := hcons
    exact .inr ⟨c, d, rfl, (hostOp_construct_next h).2⟩
  have hstep : op ≠ .step := by
    rintro rfl
    have h : step s = .next t := h
    rw [step_of_halted hlatch] at h
    cases h
  exact .inl ((hostOp_keeps_faultLatch hstep (fun c d e => hcons ⟨c, d, e⟩) h).trans hlatch)

/-- The legal parameters of R7, with the base costs by mode. -/
theorem legal_iff (c : Config) :
    c.legal = true ↔ 256 ≤ c.memSize ∧ c.memSize ≤ 65536 ∧ (∀ m, 1 ≤ c.baseCost.cost m) ∧
      c.dispatch.wf = true ∧ 1 ≤ c.cycleWidth := by
  have hcosts : c.baseCost.legal = true ↔ ∀ m, 1 ≤ c.baseCost.cost m := by
    simp only [BaseCosts.legal, Bool.and_eq_true, decide_eq_true_eq, and_assoc]
    constructor
    · rintro ⟨h1, h2, h3, h4, h5, h6, h7, h8⟩ m
      cases m <;> assumption
    · intro h
      exact ⟨h .immediate, h .zeroPage, h .zeroPageIndexedByX, h .absolute, h .absoluteIndexedByX,
        h .absoluteIndexedByY, h .indirectIndexedByX, h .indirectIndexedByY⟩
  simp only [Config.legal, Bool.and_eq_true, decide_eq_true_eq, hcosts, and_assoc]

/-- A core that is not halted has a next state (R91). -/
theorem step_answers {s : State} (hlatch : s.faultLatch = none) : ∃ t, step s = .next t := by
  obtain ⟨w, hw, -⟩ | ⟨-, w, -, hs⟩ | ⟨-, op, -, hran⟩ := step_cases s
  · rw [hlatch] at hw
    cases hw
  · exact ⟨_, hs⟩
  · obtain ⟨m, v, extra, -, -, -, hs⟩ | ⟨w, -, hs⟩ | ⟨-, hs⟩ := hran <;> exact ⟨_, hs⟩

/-- Settles O29: the next state is a finished LDA, a taken fault or a skipped byte, and each reports one of the
three outcomes. -/
theorem stepHasOneOfThreeOutcomes : Obligations.StepHasOneOfThreeOutcomes := by
  intro s hlegal hlatch
  obtain ⟨t, ht⟩ := step_answers hlatch
  refine ⟨t, ht, ?_⟩
  obtain ⟨-, ⟨op, m, v, extra, hop, hentry, hle, hzero, rfl⟩ | ⟨w, -, rfl⟩ | ⟨op, hop, hentry, rfl⟩⟩ :=
    step_next_cases ht
  · obtain ⟨-, rfl⟩ := (memRead_ok_iff s s.pc op).1 hop
    obtain ⟨-, -, hcosts, -, -⟩ := (legal_iff s.config).1 hlegal
    exact .inl ⟨⟨m, .lda⟩, extra, hentry, hle, hzero, finishLda_report m v extra s,
      Nat.le_add_right_of_le (hcosts m), counterAfterPulse_eq_counterPlus s _, hlatch⟩
  · exact .inr (.inr ⟨w, rfl, rfl, rfl⟩)
  · obtain ⟨-, rfl⟩ := (memRead_ok_iff s s.pc op).1 hop
    exact .inr (.inl ⟨hentry, rfl, rfl, hlatch⟩)

/-- Settles O30: of the three next states only the taken fault has the latch set, and the access that raised was
out of range. -/
theorem faultedStepKeepsItsRegisters : Obligations.FaultedStepKeepsItsRegisters := by
  intro s t w hlatch hstep ht
  obtain ⟨-, ⟨op, m, v, extra, -, -, -, -, rfl⟩ | ⟨w', hw', rfl⟩ | ⟨op, -, -, rfl⟩⟩ := step_next_cases hstep
  · cases hlatch.symm.trans ht
  · cases ht
    obtain ⟨-, hout, hpolicy⟩ := (memRead_error_iff s w.addr w).1 hw'
    exact ⟨hpolicy, hout, takeFault_faultTakenAt s w.addr⟩
  · cases hlatch.symm.trans ht

/-! ## Runs -/

/-- No run writes the configuration, memory, X or Y. -/
theorem runSteps_frame {k : Nat} {s t : State} (h : runSteps k s = .next t) :
    t.config = s.config ∧ t.mem = s.mem ∧ t.x = s.x ∧ t.y = s.y := by
  induction k generalizing s with
  | zero => cases h; exact ⟨rfl, rfl, rfl, rfl⟩
  | succ k ih =>
    obtain ⟨u, hu, hrun⟩ := runSteps_succ_cases h
    obtain ⟨hc, hm, hx, hy⟩ := step_frame hu
    obtain ⟨hc', hm', hx', hy'⟩ := ih hrun
    exact ⟨hc'.trans hc, hm'.trans hm, hx'.trans hx, hy'.trans hy⟩

/-- Settles O33: the memory of a run is the same memory, so every byte of it is. -/
theorem runNeverWritesMemoryOrIndexRegisters : Obligations.RunNeverWritesMemoryOrIndexRegisters := by
  intro k s t h
  obtain ⟨hconfig, hmem, hx, hy⟩ := runSteps_frame h
  exact ⟨hx, hy, hconfig, fun a => by rw [hmem]⟩

/-- With every address backed no access raises (R42). -/
theorem memRead_ne_error_of_backed {s : State} (h : s.config.oorPolicy = .wrap ∨ s.config.memSize = 65536)
    (a : Addr) (w : OutOfRange) : memRead s a ≠ .error w := by
  intro hw
  obtain ⟨-, hout, hpolicy⟩ := (memRead_error_iff s a w).1 hw
  obtain hwrap | hfull := h
  · rw [hpolicy] at hwrap
    cases hwrap
  · have := a.isLt
    omega

/-- With every address backed a step leaves the latch open. -/
theorem step_latch_open_of_backed {s t : State} (hlatch : s.faultLatch = none)
    (hbacked : s.config.oorPolicy = .wrap ∨ s.config.memSize = 65536) (h : step s = .next t) :
    t.faultLatch = none := by
  obtain ⟨-, ⟨_, m, v, extra, -, -, -, -, rfl⟩ | ⟨w, hw, rfl⟩ | ⟨_, -, -, rfl⟩⟩ := step_next_cases h
  · exact hlatch
  · exact absurd hw (memRead_ne_error_of_backed hbacked w.addr w)
  · exact hlatch

/-- Settles O31: with every address backed a step leaves the latch open and the configuration as it is, so the
run has its next step. -/
theorem noFaultWhenEveryAddressIsBacked : Obligations.NoFaultWhenEveryAddressIsBacked := by
  intro k
  induction k with
  | zero =>
    intro s hlatch _
    simp [runsSafely, runSteps, hlatch]
  | succ k ih =>
    intro s hlatch hbacked
    obtain ⟨t, ht⟩ := step_answers hlatch
    obtain ⟨hconfig, -⟩ := step_frame ht
    have hsafe := ih t (step_latch_open_of_backed hlatch hbacked ht) (hconfig ▸ hbacked)
    rwa [runsSafely, ← runSteps_succ_next ht] at hsafe

/-! ## Counter along a run -/

/-- Two additions to the counter are one of the sum, under both policies (R84, R88). -/
theorem counterAfterPulse_counterAfterPulse (c : Config) (n j k : Nat) :
    counterAfterPulse c (counterAfterPulse c n j) k = counterAfterPulse c n (j + k) := by
  unfold counterAfterPulse
  cases c.cycleOverflow with
  | wrap => simp only [Nat.mod_add_mod, Nat.add_assoc]
  | saturate =>
    simp only
    omega

/-- A sum inside the counter's width is exact, under both policies. -/
theorem counterAfterPulse_of_lt {c : Config} {n k : Nat} (h : n + k < 2 ^ c.cycleWidth) :
    counterAfterPulse c n k = n + k := by
  unfold counterAfterPulse
  split
  · exact Nat.mod_eq_of_lt h
  · omega

/-- A step adds the cost it reports to Counter (R94, R97, R98). -/
theorem step_counter {s t : State} (hs : s.counter < 2 ^ s.config.cycleWidth) (h : step s = .next t) :
    t.counter = counterAfterPulse s.config s.counter ((t.report.map Report.cost).getD 0) := by
  obtain ⟨-, ⟨_, m, v, extra, -, -, -, -, rfl⟩ | ⟨w, -, rfl⟩ | ⟨_, -, -, rfl⟩⟩ := step_next_cases h
  · rfl
  · exact (counterAfterPulse_of_lt (k := 0) hs).symm
  · exact (counterAfterPulse_of_lt (k := 0) hs).symm

theorem costOfRun_succ_next {k : Nat} {s t : State} (h : step s = .next t) :
    costOfRun (k + 1) s = (t.report.map Report.cost).getD 0 + costOfRun k t := by
  simp only [costOfRun, h]

/-- A run adds the sum of the costs its steps report. -/
theorem runSteps_counter {k : Nat} {s u : State} (hs : s.counter < 2 ^ s.config.cycleWidth)
    (h : runSteps k s = .next u) :
    u.counter = counterAfterPulse s.config s.counter (costOfRun k s) := by
  induction k generalizing s with
  | zero =>
    cases h
    exact (counterAfterPulse_of_lt (k := 0) hs).symm
  | succ k ih =>
    obtain ⟨t, ht, hu⟩ := runSteps_succ_cases h
    obtain ⟨hconfig, -⟩ := step_frame ht
    have hcounter := step_counter hs ht
    have hlt : t.counter < 2 ^ t.config.cycleWidth := by
      rw [hconfig, hcounter]
      exact counterAfterPulse_lt _ _ _
    rw [ih hlt hu, hconfig, hcounter, counterAfterPulse_counterAfterPulse, costOfRun_succ_next ht]

/-- Settles O40: the run's one addition, read under each overflow policy. -/
theorem counterIsSumOfReturnedCosts : Obligations.CounterIsSumOfReturnedCosts := by
  intro k s t hs h
  rw [runSteps_counter hs h, counterAfterPulse]
  exact ⟨fun hwrap => by rw [hwrap], fun hsat => by rw [hsat]⟩

/-! ## Timing -/

/-- The state that differs from `s` in timing only: other base costs, another counter, another report (R177). -/
def State.retimed (s : State) (costs : BaseCosts) (counter : Nat) (report : Option Report) : State :=
  { s with config := { s.config with baseCost := costs }, counter := counter, report := report }

theorem sameButTiming_iff (s t : State) :
    Claims.sameButTiming s t ↔ ∃ costs counter report, t = s.retimed costs counter report :=
  ⟨fun h => ⟨_, _, _, h⟩, fun ⟨_, _, _, h⟩ => h ▸ rfl⟩

/-- Two outcomes that agree: next states that differ in timing only, or the same stop. -/
inductive OutcomesAgree : StepResult → StepResult → Prop where
  | next {t t' : State} (h : Claims.sameButTiming t t') : OutcomesAgree (.next t) (.next t')
  | fault (r : Fault) : OutcomesAgree (.fault r) (.fault r)
  | refused (r : Refusal) : OutcomesAgree (.refused r) (.refused r)

theorem OutcomesAgree.next_left {t : State} {r' : StepResult} (h : OutcomesAgree (.next t) r') :
    ∃ t', r' = .next t' ∧ Claims.sameButTiming t t' := by
  cases h with
  | next ht => exact ⟨_, rfl, ht⟩

theorem OutcomesAgree.fault_left {r : Fault} {r' : StepResult} (h : OutcomesAgree (.fault r) r') :
    r' = .fault r := by
  cases h
  rfl

section Retimed
variable (s : State) (costs : BaseCosts) (counter : Nat) (report : Option Report)

@[simp] theorem retimed_faultLatch : (s.retimed costs counter report).faultLatch = s.faultLatch := rfl

@[simp] theorem fetchInstr_retimed : fetchInstr (s.retimed costs counter report) = fetchInstr s := rfl

@[simp] theorem operandValue_retimed (o : Operand) :
    operandValue (s.retimed costs counter report) o = operandValue s o := by
  cases o <;> rfl

@[simp] theorem resolutionOf_retimed (m : AddressMode) (b1 b2 : Byte) :
    resolutionOf m b1 b2 (s.retimed costs counter report) = resolutionOf m b1 b2 s := by
  cases m <;> rfl

/-- An LDA from one resolution agrees with itself under another timing. -/
theorem loadAccumulator_retimed (m : AddressMode) (resolved : Access Resolution) :
    OutcomesAgree (loadAccumulator m resolved s)
      (loadAccumulator m resolved (s.retimed costs counter report)) := by
  cases resolved with
  | error w => exact .next rfl
  | ok r =>
    simp only [loadAccumulator, operandValue_retimed]
    cases operandValue s r.operand with
    | error w => exact .next rfl
    | ok v => exact .next rfl

/-- An instruction agrees with itself under another timing. -/
theorem exec_retimed (i : Instr) :
    OutcomesAgree (exec i s) (exec i (s.retimed costs counter report)) := by
  obtain ⟨e, b1, b2, rfl⟩ | ⟨op, rfl⟩ := instr_eq_instrOf_or_unrecognized i
  · rw [exec_instrOf, exec_instrOf, resolutionOf_retimed]
    exact loadAccumulator_retimed s costs counter report _ _
  · exact .next rfl

/-- A step agrees with itself under another timing. -/
theorem step_retimed : OutcomesAgree (step s) (step (s.retimed costs counter report)) := by
  simp only [step, retimed_faultLatch, fetchInstr_retimed]
  cases s.faultLatch with
  | some w => exact .fault _
  | none =>
    cases fetchInstr s with
    | error w => exact .next rfl
    | ok i => exact exec_retimed s costs counter report i

end Retimed

/-- Runs from two states that differ in timing only agree (R177). -/
theorem runSteps_outcomesAgree (k : Nat) {s s' : State} (h : Claims.sameButTiming s s') :
    OutcomesAgree (runSteps k s) (runSteps k s') := by
  induction k generalizing s s' with
  | zero => exact .next h
  | succ k ih =>
    obtain ⟨costs, counter, report, rfl⟩ := (sameButTiming_iff s s').1 h
    have hstep := step_retimed s costs counter report
    rw [runSteps, runSteps]
    generalize step s = r, step (s.retimed costs counter report) = r' at hstep ⊢
    cases hstep with
    | next ht => exact ih ht
    | fault r => exact .fault r
    | refused r => exact .refused r

/-- Settles O39: the two runs agree, so they stop for the same reason or reach states that differ in timing
only. -/
theorem resultsDoNotDependOnTiming : Obligations.ResultsDoNotDependOnTiming := by
  intro k s s' h
  have hagree := runSteps_outcomesAgree k h
  exact ⟨fun t ht => (ht ▸ hagree).next_left, fun r hr => (hr ▸ hagree).fault_left⟩

end Sys2Proof.Machine
end

section
/-! The invariant and the host interface (spec/41_step.md section 3, spec/70_reset_and_hazards.md). -/

namespace Sys2Proof.Machine

/-! ## The invariant -/

theorem inv_iff (s : State) :
    s.inv = true ↔ s.config.legal = true ∧ Memory.wf s.mem = true ∧
      Memory.below s.config.memSize s.mem = true ∧ s.counter < 2 ^ s.config.cycleWidth ∧
      s.latchConsistent = true ∧ s.reportedCostPositive = true := by
  simp only [State.inv, Bool.and_eq_true, decide_eq_true_eq, and_assoc]

/-- A latch set by an access that raised, and reported, is consistent (R152). -/
theorem takeFault_latchConsistent {s : State} {w : OutOfRange} (h : memRead s w.addr = .error w) :
    (takeFault w s).latchConsistent = true := by
  obtain ⟨-, hout, hpolicy⟩ := (memRead_error_iff s w.addr w).1 h
  simp [State.latchConsistent, hout, hpolicy]

/-- With the latch open, a report other than a fault is consistent with it. -/
theorem latchConsistent_of_open {s : State} (hlatch : s.faultLatch = none)
    (hreport : ∀ w, s.report ≠ some (.faulted w)) : s.latchConsistent = true := by
  unfold State.latchConsistent
  rw [hlatch]
  simp only
  split
  · exact absurd ‹_› (hreport _)
  · rfl
  · rfl
  · rfl

/-- Settles O36: no step writes the configuration or memory, so the invariant of the next state is the counter,
the latch and the cost of what the step reported. -/
theorem stepKeepsTheInvariant : Obligations.StepKeepsTheInvariant := by
  intro s t hs h
  obtain ⟨hlegal, hwf, hbelow, hcounter, -, -⟩ := (inv_iff s).1 hs
  obtain ⟨hconfig, hmem, -⟩ := step_frame h
  rw [inv_iff, hconfig, hmem]
  refine ⟨hlegal, hwf, hbelow, ?_, ?_⟩
  · rw [step_counter hcounter h]
    exact counterAfterPulse_lt _ _ _
  · obtain ⟨hlatch, ⟨_, m, v, extra, -, -, -, -, rfl⟩ | ⟨w, hw, rfl⟩ | ⟨_, -, -, rfl⟩⟩ := step_next_cases h
    · obtain ⟨-, -, hcosts, -, -⟩ := (legal_iff s.config).1 hlegal
      exact ⟨latchConsistent_of_open hlatch nofun,
        decide_eq_true (Nat.le_add_right_of_le (hcosts m))⟩
    · exact ⟨takeFault_latchConsistent hw, rfl⟩
    · exact ⟨latchConsistent_of_open hlatch nofun, rfl⟩

/-- Settles O37, by evaluation of the one state. -/
theorem resetMeetsTheInvariant : Obligations.ResetMeetsTheInvariant := by
  unfold Obligations.ResetMeetsTheInvariant
  decide

/-- A construction with legal parameters meets the invariant, whatever the draw (R37, R170). -/
theorem construct_inv {c : Config} (d : Draws) (h : c.legal = true) : (State.construct c d).inv = true := by
  refine (inv_iff _).2 ⟨h, Memory.writeBytes_wf _ 0 rfl, Memory.writeBytes_below _ 0 ?_ rfl,
    Nat.two_pow_pos _, rfl, rfl⟩
  rw [Nat.zero_add]
  exact List.length_take_le _ _

/-- A counter inside its width keeps the invariant. -/
theorem inv_with_counter {s : State} {k : Nat} (hs : s.inv = true) (hk : k < 2 ^ s.config.cycleWidth) :
    ({ s with counter := k } : State).inv = true := by
  obtain ⟨hlegal, hwf, hbelow, -, hlatch, hcost⟩ := (inv_iff s).1 hs
  exact (inv_iff _).2 ⟨hlegal, hwf, hbelow, hk, hlatch, hcost⟩

/-- A load that answers lies inside memory, or writes nothing (R43). -/
theorem hostLoad_in_range {s t : State} {addr : Nat} {bytes : List Byte}
    (h : hostLoad addr bytes s = .next t) : bytes = [] ∨ addr + bytes.length ≤ s.config.memSize := by
  unfold hostLoad at h
  split at h
  · assumption
  · cases h

/-- A load that answers keeps the invariant. -/
theorem hostLoad_keeps_inv {s t : State} {addr : Nat} {bytes : List Byte} (hs : s.inv = true)
    (h : hostLoad addr bytes s = .next t) : t.inv = true := by
  obtain ⟨hlegal, hwf, hbelow, hcounter, hlatch, hcost⟩ := (inv_iff s).1 hs
  obtain rfl := hostLoad_next h
  obtain rfl | hin := hostLoad_in_range h
  · exact hs
  · exact (inv_iff _).2 ⟨hlegal, Memory.writeBytes_wf _ _ hwf, Memory.writeBytes_below _ _ hin hbelow,
      hcounter, hlatch, hcost⟩

/-- Settles O38: a construction establishes the invariant; a load keeps memory canonical and in its bound, a
reset and a pulse the counter in its width; the register writes do not touch what the invariant reads. -/
theorem hostOperationsKeepTheInvariant : Obligations.HostOperationsKeepTheInvariant := by
  have hconstruct (c : Config) (d : Draws) (s t : State) (h : hostOp (.construct c d) s = .next t) :
      t.inv = true := by
    obtain ⟨hlegal, rfl⟩ := hostOp_construct_next h
    exact construct_inv d hlegal
  refine ⟨fun op s t hs h => ?_, hconstruct⟩
  cases op with
  | construct c d => exact hconstruct c d s t h
  | load addr bytes => exact hostLoad_keeps_inv hs (beforeFirstStep_next h).2
  | setPC v | setA v | setX v | setY v => cases (beforeFirstStep_next h).2; exact hs
  | step => exact stepKeepsTheInvariant s t hs h
  | counterReset =>
    cases h
    exact inv_with_counter hs (Nat.two_pow_pos _)
  | counterPulse n =>
    obtain ⟨-, rfl⟩ := hostPulse_next h
    exact inv_with_counter hs (counterAfterPulse_lt _ _ _)

/-! ## Construction and the host's writes -/

/-- Settles O41: a legal construction is the constructed state, whose memory is the drawn bytes that fit. -/
theorem constructionGivesTheStatedValues : Obligations.ConstructionGivesTheStatedValues := by
  intro c d s
  refine ⟨fun hlegal => ⟨State.construct c d, by simp only [hostOp, hlegal, if_true],
    rfl, rfl, rfl, rfl, rfl, rfl, rfl, rfl, rfl, rfl, fun k v hk hv => ?_⟩,
    fun hillegal => by simp only [hostOp, hillegal, Bool.false_eq_true, if_false]⟩
  have hdrawn : (d.mem.take c.memSize)[k]? = some v := by rw [List.getElem?_take_of_lt hk, hv]
  obtain ⟨hlen, -⟩ := List.getElem?_eq_some_iff.1 hdrawn
  have hread := Memory.read_writeBytes_inside (d.mem.take c.memSize) (m := []) 0 rfl hlen
  rw [Nat.zero_add, hdrawn] at hread
  exact (Option.some.inj hread).symm

/-- Settles O42, by evaluation. -/
theorem resetIsTheReferenceConstruction : Obligations.ResetIsTheReferenceConstruction :=
  ⟨rfl, rfl, rfl, rfl, by decide⟩

/-- Before the first step an operation is allowed (R103). -/
theorem beforeFirstStep_of_none {s : State} (h : s.report = none) (r : StepResult) :
    beforeFirstStep s r = r := by
  simp only [beforeFirstStep, h]

/-- After a report an operation is refused (R103). -/
theorem beforeFirstStep_of_isSome {s : State} (h : s.report.isSome = true) (r : StepResult) :
    beforeFirstStep s r = .refused .afterFirstStep := by
  obtain ⟨o, ho⟩ := Option.isSome_iff_exists.1 h
  simp only [beforeFirstStep, ho]

/-- Settles O43: a load in range writes its bytes in a row, which are read back and leave the rest alone. -/
theorem loadWritesItsBytes : Obligations.LoadWritesItsBytes := by
  intro s addr bytes hreport hwf
  constructor
  · intro hin
    refine ⟨{ s with mem := Memory.writeBytes s.mem addr bytes }, ?_, rfl, fun k hk => ?_, fun a ha => ?_⟩
    · simp only [hostOp, beforeFirstStep_of_none hreport, hostLoad, if_pos (Or.inr hin)]
    · exact Memory.read_writeBytes_inside bytes addr hwf hk
    · exact Memory.read_writeBytes_outside bytes s.mem addr ha
  · intro hne hout
    have hcond : ¬ (bytes = [] ∨ addr + bytes.length ≤ s.config.memSize) :=
      not_or.2 ⟨hne, Nat.not_le_of_lt hout⟩
    simp only [hostOp, beforeFirstStep_of_none hreport, hostLoad, if_neg hcond]

/-- Every step that answers reports (R91). -/
theorem step_reports {s t : State} (h : step s = .next t) : t.report.isSome = true := by
  obtain ⟨-, ⟨_, m, v, extra, -, -, -, -, rfl⟩ | ⟨w, -, rfl⟩ | ⟨_, -, -, rfl⟩⟩ := step_next_cases h <;> rfl

/-- Settles O44: the host's writes are allowed while nothing is reported, and every step reports. -/
theorem hostWritesOnlyBeforeTheFirstStep : Obligations.HostWritesOnlyBeforeTheFirstStep := by
  constructor
  · intro s p v h
    simp only [hostOp, beforeFirstStep_of_none h, and_self]
  · intro s t h p v addr bytes
    simp only [hostOp, beforeFirstStep_of_isSome (step_reports h), and_self]

/-! ## The counter -/

/-- A natural operand is legal exactly when it is inside the counter's width (R83). -/
theorem hostPulse_natCast (n : Nat) (s : State) :
    hostPulse n s = if n < 2 ^ s.config.cycleWidth then .next (pulse n s) else .refused .pulseOperand := by
  have hrange : (0 ≤ (n : Int) ∧ (n : Int) ≤ 2 ^ s.config.cycleWidth - 1) ↔
      n < 2 ^ s.config.cycleWidth := by
    rw [Int.le_sub_one_iff]
    exact_mod_cast and_iff_right n.zero_le
  simp only [hostPulse, hrange, Int.toNat_natCast]

/-- A negative operand is refused (R83). -/
theorem hostPulse_of_neg {m : Int} (hm : m < 0) (s : State) : hostPulse m s = .refused .pulseOperand :=
  if_neg fun h => absurd h.1 (by omega)

/-- Settles O45: an operand inside the width is pulsed, any other is refused. -/
theorem pulseAddsUnderTheOverflowPolicy : Obligations.PulseAddsUnderTheOverflowPolicy := by
  intro s n
  refine ⟨fun hn => ?_, fun hn => ?_, fun m hm => hostPulse_of_neg hm s⟩
  · simp only [hostOp, hostPulse_natCast, if_pos hn, pulse, counterAfterPulse_eq_counterPlus]
  · simp only [hostOp, hostPulse_natCast, if_neg (Nat.not_lt_of_le hn)]

/-- Settles O46: the pulse adds to the 0 that the reset leaves. -/
theorem resetThenPulseGivesItsOperand : Obligations.ResetThenPulseGivesItsOperand := by
  intro s n hn
  refine ⟨counterReset s, pulse n (counterReset s), rfl, ?_, ?_⟩
  · exact (hostPulse_natCast n (counterReset s)).trans (if_pos hn)
  · have hsum : counterAfterPulse s.config 0 n = n :=
      (counterAfterPulse_of_lt (by rwa [Nat.zero_add])).trans n.zero_add
    simp only [pulse, counterReset, hsum]

/-! ## A placed word -/

/-- Three bytes placed in a row inside memory are written in a row. -/
theorem placeByte_three_eq_writeBytes {s : State} {a : Addr} (b0 b1 b2 : Byte)
    (hin : a.toNat + 2 < s.config.memSize) (hsize : s.config.memSize ≤ 65536) :
    ((s.placeByte a b0).placeByte (a + 1) b1).placeByte (a + 2) b2 =
      { s with mem := Memory.writeBytes s.mem a.toNat [b0, b1, b2] } := by
  have h1 : (a + 1).toNat = a.toNat + 1 := (BitVec.toNat_add a 1).trans (Nat.mod_eq_of_lt (by simp; omega))
  have h2 : (a + 2).toNat = a.toNat + 2 := (BitVec.toNat_add a 2).trans (Nat.mod_eq_of_lt (by simp; omega))
  rw [placeByte_of_lt (a := a) b0 (by omega), placeByte_of_lt (a := a + 1) b1 (h1 ▸ Nat.lt_of_succ_lt hin),
    placeByte_of_lt (a := a + 2) b2 (h2 ▸ hin), h1, h2]
  rfl

/-- With PC and the two addresses after it in memory, a placed word is its three bytes written at PC, and the
latch open (log 9). -/
theorem withFetchWord_eq {s : State} (nbits w : Nat) (hin : s.pc.toNat + 2 < s.config.memSize)
    (hsize : s.config.memSize ≤ 65536) :
    s.withFetchWord nbits w =
      { s with
        faultLatch := none
        mem := Memory.writeBytes s.mem s.pc.toNat (bytesOfTableWord nbits w) } :=
  placeByte_three_eq_writeBytes (s := { s with faultLatch := none }) _ _ _ hin hsize

/-- A table word decodes when its three bytes do. -/
theorem decodeTableWord_some {nbits w : Nat} {i : Instr} (h : decodeTableWord nbits w = some i) :
    ∃ rest, decode referenceDispatch (bytesOfTableWord nbits w) = .ok (i, rest) := by
  unfold decodeTableWord at h
  split at h
  · cases h
    exact ⟨_, ‹_›⟩
  · cases h

/-- Settles O48: the placed bytes are read back at PC and after it, so the fetch reads the word's instruction,
and the latch is open. -/
theorem placedWordIsRun : Obligations.PlacedWordIsRun := by
  intro s nbits w i htable hwf hin hsize hword
  obtain ⟨rest, hdecode⟩ := decodeTableWord_some hword
  rw [withFetchWord_eq nbits w hin hsize]
  refine step_of_fetchInstr rfl (fetchInstr_of_decode (bs := bytesOfTableWord nbits w) (fun j b hb => ?_)
    (htable ▸ hdecode))
  obtain ⟨hj, -⟩ := List.getElem?_eq_some_iff.1 hb
  have hj3 : j < 3 := hj
  have haddr : (Claims.afterPc s j).toNat = s.pc.toNat + j := Nat.mod_eq_of_lt (by omega)
  have hread := Memory.read_writeBytes_inside (bytesOfTableWord nbits w) s.pc.toNat hwf hj
  rw [hb] at hread
  refine (memRead_ok_iff _ _ b).2 ⟨.inl ?_, ?_⟩
  · show (Claims.afterPc s j).toNat < s.config.memSize
    omega
  · show b = Memory.read _ ((Claims.afterPc s j).toNat % s.config.memSize)
    rw [haddr, Nat.mod_eq_of_lt (by omega)]
    exact Option.some.inj hread

end Sys2Proof.Machine
end
